-- ==== Sys2Proof/Config.lean ====
section
/-! DEFINITION. What an implementation of the block fixes (00_scope.md section 4).

The spec's open parameters are three. `P_DELAY_W` is a field of State, so that every statement about
every state is about every width (log 4). `P_LAT_CMD` and `P_LAT_SYM` are the wait bits of each clock
cycle (log 3). So this file holds only the sizes that the source fixes and the reference width. -/

namespace Sys2Proof

/-- `FRAME_N`: bytes of the command frame (R19). -/
abbrev Config.frameN : Nat := 17

/-- `FF_N`: bytes of a fixed frame (R31). -/
abbrev Config.fixedFrameN : Nat := 8

/-- `RENDER_N`: symbols of one render (R102). -/
abbrev Config.renderN : Nat := 276

/-- The reference value of `P_DELAY_W` (R7, 92 D4). State.reset starts with it; no rule depends on it. -/
abbrev Config.referenceDelayW : Nat := 16

/-- The least `P_DELAY_W` for which the rules are stated (00_scope.md section 4, 93 U16). -/
abbrev Config.leastDelayW : Nat := 2

end Sys2Proof
end

