-- ==== Sys2Proof/Word.lean ====
section
/-! DEFINITION. The bit-vector widths of the IR protocol encoder (00_scope.md section 4, 10_state.md R13). -/

namespace Sys2Proof

/-- A byte: one frame byte, one setting byte, one field of a symbol's quadruple. -/
abbrev Byte := BitVec 8

/-- `CMD_W` = 16: a command word (R45). -/
abbrev CmdWord := BitVec 16

/-- `CODE_W` = 2: an enumerated setting's port code (R51 to R53). -/
abbrev SettingCode := BitVec 2

/-- The 3-bit code of a timing symbol on `sym_code` (R55). -/
abbrev SymCode := BitVec 3

/-- A symbol's quadruple `{F0, F1, F2, F3}` on `sym_quad` (R97). -/
abbrev Quad := BitVec 32

/-- `RES_W` = 24: the result register (R18). -/
abbrev ResWord := BitVec 24

/-- The STATUS register as the host reads it (R20). -/
abbrev StatusWord := BitVec 16

end Sys2Proof
end

