-- ==== Sys2Proof/Syntax.lean ====
section
/-! DEFINITION. The commands of "IRPE command set v1": one constructor per row of the opcode map (R47). -/

namespace Sys2Proof

/-- A command. Only `emitb` and `emits` carry an operand (R46); every other input of a command is read from SET. -/
inductive Instr where
  /-- `nop`, R65 -/
  | nop
  /-- `enc.mode`, R81 -/
  | encMode
  /-- `enc.tmr`, R82 -/
  | encTmr
  /-- `enc.pwr`, R83 -/
  | encPwr
  /-- `enc.fan`, R84 -/
  | encFan
  /-- `enc.swg`, R85 -/
  | encSwg
  /-- `enc.temp`, R86 -/
  | encTemp
  /-- `enc.dly`, R87 -/
  | encDly
  /-- `build`, R96 -/
  | build
  /-- `emitb b`, R108: `b` is `OPND[7:0]`, any byte. -/
  | emitb (b : Byte)
  /-- `emits s`, R109: `s` is `OPND[2:0]`; legal only when `s ≤ 5` (see WellFormed). -/
  | emits (s : SymCode)
  /-- `render`, R110 -/
  | render
  deriving DecidableEq, Repr

end Sys2Proof
end

