-- ==== Sys2Proof/WellFormed.lean ====
section
/-! DEFINITION. Which terms of Instr are commands of the set (R46, R48). -/

namespace Sys2Proof

/-- Codes 6 and 7 name no symbol (R55), so `emits` takes only `s ≤ 5`; every other term is a command. -/
def Instr.wf : Instr → Bool
  | .emits s => decide (s.toNat ≤ 5)
  | .nop | .encMode | .encTmr | .encPwr | .encFan | .encSwg | .encTemp | .encDly => true
  | .build | .emitb _ | .render => true

end Sys2Proof
end

