-- ==== Sys2Proof/Decode.lean ====
section
/-! DEFINITION. The command decoder (R45 to R50) and, after it, the encoder and the opcode map's rows (R47). -/

namespace Sys2Proof

/-- `OP`, bits 15:12 of a command word (R45). -/
def opField (w : CmdWord) : BitVec 4 := w.extractLsb' 12 4

/-- `RSV`, bits 11:8 (R45). -/
def rsvField (w : CmdWord) : BitVec 4 := w.extractLsb' 8 4

/-- `OPND`, bits 7:0 (R45). -/
def opndField (w : CmdWord) : Byte := w.extractLsb' 0 8

/-- Why a word is illegal: the three verdicts of R48. -/
inductive Illegal where
  | reservedOpcode
  | reservedBits
  | badOperand
  deriving DecidableEq, Repr

/-- The decoder's verdict on a word (R48): exactly one legal command, or illegal. -/
inductive Verdict where
  | legal (i : Instr)
  | illegal (why : Illegal)
  deriving DecidableEq, Repr

/-- The commands that take no operand, by opcode (R47). The other opcodes are `emitb`, `emits` and the reserved ones. -/
def operandlessCommand (op : BitVec 4) : Option Instr :=
  match op.toNat with
  | 0x0 => some .nop
  | 0x1 => some .encMode
  | 0x2 => some .encTmr
  | 0x3 => some .encPwr
  | 0x4 => some .encFan
  | 0x5 => some .encSwg
  | 0x6 => some .encTemp
  | 0x7 => some .encDly
  | 0x8 => some .build
  | 0xB => some .render
  | _ => none

/-- `decode(w)` of R48, in the order of its branches: reserved opcode, reserved bits, then the operand. -/
def decode (w : CmdWord) : Verdict :=
  if 0xC ≤ (opField w).toNat then .illegal .reservedOpcode
  else if rsvField w ≠ 0 then .illegal .reservedBits
  else if opField w = 0x9 then .legal (.emitb (opndField w))
  else if opField w = 0xA then
    if (opndField w).extractLsb' 3 5 = 0 ∧ ((opndField w).extractLsb' 0 3).toNat ≤ 5 then
      .legal (.emits ((opndField w).extractLsb' 0 3))
    else .illegal .badOperand
  else if opndField w = 0 then
    match operandlessCommand (opField w) with
    | some i => .legal i
    | none => .illegal .reservedOpcode
  else .illegal .badOperand

/-- The `ERR_VALUE` that records the part of an illegal word at fault (R116). -/
def illegalValue (why : Illegal) (w : CmdWord) : Byte :=
  match why with
  | .reservedOpcode => w.extractLsb' 8 8
  | .reservedBits => w.extractLsb' 8 8
  | .badOperand => w.extractLsb' 0 8

/-- The command of a verdict, if it is legal. -/
def Verdict.instr? : Verdict → Option Instr
  | .legal i => some i
  | .illegal _ => none

/-- The command that the decoder reads from a table word of `nbits` bits; a command is one 16-bit word (R50). -/
def decodeTableWord (nbits w : Nat) : Option Instr :=
  if nbits ≤ 16 then (decode (BitVec.ofNat 16 (w % 2 ^ nbits))).instr? else none

/-- The word of a command, from the encoding column of the opcode map (R47). -/
def encode : Instr → CmdWord
  | .nop => 0b0000000000000000#16
  | .encMode => 0b0001000000000000#16
  | .encTmr => 0b0010000000000000#16
  | .encPwr => 0b0011000000000000#16
  | .encFan => 0b0100000000000000#16
  | .encSwg => 0b0101000000000000#16
  | .encTemp => 0b0110000000000000#16
  | .encDly => 0b0111000000000000#16
  | .build => 0b1000000000000000#16
  | .emitb b => 0b10010000#8 ++ b
  | .emits s => 0b1010000000000#13 ++ s
  | .render => 0b1011000000000000#16

/-- A row of the opcode map: the bits that `mask` selects must equal `pattern` (the match / mask column of R47). -/
structure OpcodeRow where
  pattern : CmdWord
  mask : CmdWord
  deriving DecidableEq, Repr

/-- The row of the opcode map that a command belongs to (R47). -/
def opcodeRow : Instr → OpcodeRow
  | .nop => ⟨0x0000, 0xFFFF⟩
  | .encMode => ⟨0x1000, 0xFFFF⟩
  | .encTmr => ⟨0x2000, 0xFFFF⟩
  | .encPwr => ⟨0x3000, 0xFFFF⟩
  | .encFan => ⟨0x4000, 0xFFFF⟩
  | .encSwg => ⟨0x5000, 0xFFFF⟩
  | .encTemp => ⟨0x6000, 0xFFFF⟩
  | .encDly => ⟨0x7000, 0xFFFF⟩
  | .build => ⟨0x8000, 0xFFFF⟩
  | .emitb _ => ⟨0x9000, 0xFF00⟩
  | .emits _ => ⟨0xA000, 0xFFF8⟩
  | .render => ⟨0xB000, 0xFFFF⟩

/-- A word matches a row when the masked bits are the row's pattern. -/
def OpcodeRow.matchesWord (r : OpcodeRow) (w : CmdWord) : Bool := w &&& r.mask == r.pattern

end Sys2Proof
end

