-- ==== Sys2Proof/Machine/State.lean ====
section
/-! DEFINITION. The state of the block, the ports that surround it, and the state right after reset
(10_state.md). Plain data throughout. -/

namespace Sys2Proof.Machine

/-- The six Settings port values (R13), also the six fields of SET (R16). `delay` is the unsigned value of
the `P_DELAY_W` bits of the delay port; its width is `State.pDelayW` (log 4). -/
structure Settings where
  power : SettingCode
  fan   : Byte
  swing : SettingCode
  temp  : Byte
  mode  : SettingCode
  delay : Nat
  deriving DecidableEq, Repr

/-- `PHASE` (R26). -/
inductive Phase where
  /-- No command is in progress. -/
  | idle
  /-- A command has been accepted and its effects are being computed. -/
  | exec
  /-- An emitting command is producing its symbols. -/
  | emit
  deriving DecidableEq, Repr

/-- `ERR_KIND` (R114). Code 7 is never produced (93 U8), so it has no constructor. -/
inductive ErrKind where
  | none
  | invalidMode
  | invalidPower
  | invalidFan
  | invalidSwing
  | invalidTemperature
  | illegalCommand
  deriving DecidableEq, Repr

/-- A tagged error: its kind and the offending value that `ERR_VALUE` records (R11, R115). -/
structure Err where
  kind  : ErrKind
  value : Byte
  deriving DecidableEq, Repr

/-- The six timing symbols (R55). Codes 6 and 7 name no symbol. -/
inductive PulseSym where
  | zero
  | one
  | leader
  | stop1
  | stop2
  | stop3
  deriving DecidableEq, Repr

/-- One symbol as the stream carries it: `sym_code`, `sym_quad` and `sym_last` (R13, R106). -/
structure SymOut where
  code : SymCode
  quad : Quad
  last : Bool
  deriving DecidableEq, Repr

/-- What one clock cycle brings from outside the block's registers.
The first six fields are the input ports (R13). The others are the model's own: the two wait bits stand for the
open latencies (R61, R106, R139; log 3), the read bit for what the host's reads return
(R135; log 19). -/
structure ClockCycle where
  rst       : Bool
  settings  : Settings
  cmdValid  : Bool
  cmdWord   : CmdWord
  frameAddr : BitVec 5
  symReady  : Bool
  /-- EXEC lasts past the end of this cycle: `P_LAT_CMD` has not run out. -/
  execWait  : Bool
  /-- No offer is raised at the end of this cycle: `P_LAT_SYM` has not run out. -/
  offerWait : Bool
  /-- From this cycle on the host's reads return the new values of the command in progress (R135). -/
  readsNew  : Bool
  deriving DecidableEq, Repr

/-- The frame buffer's bytes by index (R30), in one canonical form (`Memory.wf`): indices strictly rising and
no cell holding `0x00`, which is what an unlisted index reads as (R29, R33; log 8). -/
abbrev Memory := List Host.Cell

/-- The block's registers (R15, R26), the ports of this cycle and of all cycles to come, and the symbols the
sink has accepted. BUSY and the reserved STATUS bits are computed, not stored (log 7). -/
structure State where
  /-- SET (R16) -/
  set      : Settings
  /-- CUR (R17) -/
  cur      : CmdWord
  /-- RES (R18) -/
  res      : ResWord
  /-- FRAME (R19) -/
  frame    : Memory
  /-- STATUS.DONE (R22) -/
  done     : Bool
  /-- STATUS.FVALID (R23) -/
  fvalid   : Bool
  /-- STATUS.ERR_KIND (R24, R114) -/
  errKind  : ErrKind
  /-- STATUS.ERR_VALUE (R24, R115) -/
  errValue : Byte
  /-- PHASE (R26) -/
  phase    : Phase
  /-- SEQ_IDX (R26, R27) -/
  seqIdx   : BitVec 9
  /-- OFFER, which drives `sym_valid` (R26) -/
  offer    : Bool
  /-- The open parameter `P_DELAY_W` (R7); nothing changes it (log 4). -/
  pDelayW  : Nat
  /-- The FRAME that acceptance of the command in progress found: the old value of R135. The model's own; the
  block's step never reads it (log 19). -/
  oldFrame  : Memory
  /-- The FVALID that acceptance of the command in progress found (log 19). -/
  oldFvalid : Bool
  /-- The host's reads in the current cycle return the new values of the command in progress, not the old ones
  (R41, R135). The model's own; the block's registers never depend on it (log 19). -/
  seesNew   : Bool
  /-- The port values of the current cycle: those the next rising edge samples (log 1). -/
  now      : ClockCycle
  /-- The port values of the cycles after it, oldest first (log 1). -/
  later    : List ClockCycle
  /-- The port values of every cycle after those of `later`, for ever (log 2). -/
  rest     : ClockCycle
  /-- The symbols the sink has accepted, oldest first (R106, R131; log 6). -/
  sink     : List SymOut
  deriving DecidableEq, Repr

/-- Why a step stops. Each reason needs registers that contradict each other; no run from reset reaches them,
and the spec gives them no behaviour. All are safe (log 11). -/
inductive Fault where
  /-- A command's meaning is asked for in a PHASE that its life never has: EMIT for a command that emits
  nothing, or IDLE. Raised by every command's meaning. Safe. -/
  | phaseMismatch
  /-- PHASE is EMIT and SEQ_IDX is not below the length of the command's schedule (R26). Raised by the
  emission edge. Safe. -/
  | seqIdxOutOfRange
  /-- PHASE is EMIT and CUR is an illegal word, which R116 lets emit nothing. Raised by the step. Safe. -/
  | illegalWhileEmitting
  deriving DecidableEq, Repr

/-- Why a step is refused. -/
inductive Refusal where
  /-- The command has no meaning in the model. Raised by `exec` alone, in an arm of its own; no arm uses it. Safe. -/
  | notModelled (mnemonic : String)
  deriving DecidableEq, Repr

/-- Settings with every bit 0: SET at reset (R29). -/
def Settings.zero : Settings where
  power := 0
  fan := 0
  swing := 0
  temp := 0
  mode := 0
  delay := 0

/-- A cycle in which the host asks for nothing, the sink keeps its duty (R137) and every internal wait ends
(R139): the port values at reset (log 5). -/
def ClockCycle.quiet : ClockCycle where
  rst := false
  settings := Settings.zero
  cmdValid := false
  cmdWord := 0x0000#16
  frameAddr := 0#5
  symReady := true
  execWait := false
  offerWait := false
  readsNew := false

/-- The cycle without its wait bits. The cycle that repeats for ever comes in so, since every latency is finite
(R139; log 3). -/
def ClockCycle.settled (c : ClockCycle) : ClockCycle := { c with execWait := false, offerWait := false }

/-- The machine right after a reset edge (R29). The parameter has its reference value (log 4), the ports are
quiet (log 5) and the sink has accepted nothing (log 6). -/
def State.reset : State where
  set := Settings.zero
  cur := 0x0000#16
  res := 0x000000#24
  frame := []
  done := false
  fvalid := false
  errKind := ErrKind.none
  errValue := 0x00#8
  phase := Phase.idle
  seqIdx := 0#9
  offer := false
  pDelayW := Config.referenceDelayW
  now := ClockCycle.quiet
  oldFrame := []
  oldFvalid := false
  seesNew := false
  later := []
  rest := ClockCycle.quiet
  sink := []

end Sys2Proof.Machine
end

