-- ==== Sys2Proof/Machine/Rom.lean ====
section
/-! DEFINITION. The constant tables (R28): the fixed frames, the symbol codes and quadruples, and the fixed
bytes of the command frame. No command, port or reset writes them. -/

namespace Sys2Proof.Machine

/-- Fixed Frame 1 (R31). -/
def ff1 : List Byte := [0x11, 0xDA, 0x27, 0x00, 0xC5, 0x00, 0x00, 0xD7]

/-- Fixed Frame 2 (R31). -/
def ff2 : List Byte := [0x11, 0xDA, 0x27, 0x00, 0x42, 0x00, 0x00, 0x54]

/-- Bytes 0 to 4 of the command frame, the protocol header (R89). -/
def frameHeader : List Byte := [0x11, 0xDA, 0x27, 0x00, 0x00]

/-- Bytes 13 to 15 of the command frame (R89). -/
def frameTrailer : List Byte := [0x00, 0x00, 0xC1]

/-- The 3-bit code of a symbol (R55). -/
def PulseSym.code : PulseSym → SymCode
  | .zero => 0
  | .one => 1
  | .leader => 2
  | .stop1 => 3
  | .stop2 => 4
  | .stop3 => 5

/-- The symbol that a code names; codes 6 and 7 name none (R55). -/
def symOfCode (c : SymCode) : Option PulseSym :=
  match c.toNat with
  | 0 => some .zero
  | 1 => some .one
  | 2 => some .leader
  | 3 => some .stop1
  | 4 => some .stop2
  | 5 => some .stop3
  | _ => none

/-- SYMROM: the quadruple `{F0, F1, F2, F3}` of a symbol (R97). The four bytes are opaque (R98). -/
def symRom : PulseSym → Quad
  | .zero   => 0x00#8 ++ 0x12#8 ++ 0x00#8 ++ 0x12#8
  | .one    => 0x00#8 ++ 0x12#8 ++ 0x00#8 ++ 0x31#8
  | .leader => 0x00#8 ++ 0x86#8 ++ 0x00#8 ++ 0x41#8
  | .stop1  => 0x00#8 ++ 0x12#8 ++ 0x03#8 ++ 0xC1#8
  | .stop2  => 0x00#8 ++ 0x13#8 ++ 0x05#8 ++ 0x22#8
  | .stop3  => 0x00#8 ++ 0x12#8 ++ 0x1E#8 ++ 0x0D#8

end Sys2Proof.Machine
end

