-- ==== Sys2Proof/Machine/Operands.lean ====
section
/-! DEFINITION. How a command's inputs are read: from CUR (R17) and from SET (R16, R51 to R54). -/

namespace Sys2Proof.Machine

/-- `sint_W(b)` of R9 for the `W`-bit pattern whose unsigned value is `b`. -/
def sintOfWidth (W b : Nat) : Int := (BitVec.ofNat W b).toInt

/-- The fan value, `sint_8(SET.FAN)` (R54). -/
abbrev fanValue (fan : Byte) : Int := fan.toInt

/-- The temperature in °C, `sint_8(SET.TEMP)` (R54). -/
abbrev tempValue (temp : Byte) : Int := temp.toInt

/-- The delay in hours, `sint_P_DELAY_W(SET.DELAY)` (R54). -/
def State.delay (s : State) : Int := sintOfWidth s.pDelayW s.set.delay

/-- The command word that decoding and execution read (R17). The block fetches nothing itself: the word came
on the command port at acceptance (R27). -/
def fetch (s : State) : CmdWord := s.cur

/-- The Settings as the block latches them: `SET.DELAY` has `P_DELAY_W` bits, so the port's delay is taken
to that width (R16; log 18). -/
def Settings.latch (W : Nat) (p : Settings) : Settings := { p with delay := p.delay % 2 ^ W }

end Sys2Proof.Machine
end

