-- ==== Sys2Proof/Machine/Flags.lean ====
section
/-! DEFINITION. The STATUS register: its fields' codes, BUSY, and the word the host reads (R20 to R25, R114). -/

namespace Sys2Proof.Machine

/-- The 3-bit code of an error kind (R114). -/
def ErrKind.code : ErrKind → BitVec 3
  | .none => 0
  | .invalidMode => 1
  | .invalidPower => 2
  | .invalidFan => 3
  | .invalidSwing => 4
  | .invalidTemperature => 5
  | .illegalCommand => 6

/-- STATUS.BUSY is 1 exactly when PHASE is not IDLE (R21). -/
def State.busy (s : State) : Bool := s.phase != .idle

/-- The 16-bit STATUS word: ERR_VALUE 15:8, reserved 7, ERR_KIND 6:4, reserved 3, FVALID 2, DONE 1, BUSY 0 (R20, R25). -/
def State.status (s : State) : StatusWord :=
  s.errValue ++ 0#1 ++ s.errKind.code ++ 0#1
    ++ BitVec.ofBool s.fvalid ++ BitVec.ofBool s.done ++ BitVec.ofBool s.busy

end Sys2Proof.Machine
end

