-- ==== Sys2Proof/Machine/Ops.lean ====
section
/-! DEFINITION. The shared operations: the frame buffer, the command cycle (acceptance, completion), raising an
error, the reset edge, the passing of a clock cycle, and the edge of the symbol stream. -/

namespace Sys2Proof.Machine

/-- The outcome of an edge or of a command's execution at an edge. -/
abbrev Result := Host.Outcome State Fault Refusal

/-! ### The frame buffer (R19, R30, R33) -/

/-- `MemRead(FRAME, i, 1)`; an unlisted index reads `0x00` (log 8). -/
def Memory.read : Memory → Nat → Byte
  | [], _ => 0
  | (k, v) :: m, a => if a = k then v else Memory.read m a

/-- Put a cell before the first cell of a higher index. -/
def Memory.insertCell : Memory → Nat → Byte → Memory
  | [], a, v => [(a, v)]
  | (k, x) :: m, a, v => if a < k then (a, v) :: (k, x) :: m else (k, x) :: Memory.insertCell m a v

/-- `MemWrite(FRAME, i, 1, v)` in canonical form: writing `0x00` removes the cell. -/
def Memory.write (m : Memory) (a : Nat) (v : Byte) : Memory :=
  let cleared := m.filter (fun c => c.1 != a)
  if v = 0 then cleared else Memory.insertCell cleared a v

/-- Write bytes at consecutive indices from `a` on. -/
def Memory.writeBytes : Memory → Nat → List Byte → Memory
  | m, _, [] => m
  | m, a, b :: bs => Memory.writeBytes (Memory.write m a b) (a + 1) bs

/-- The canonical form of the frame buffer: indices strictly rising and at most 16, no cell holding `0x00`. -/
def Memory.wf (m : Memory) : Bool :=
  decide (m.Pairwise (fun c d => c.1 < d.1)) && m.all (fun c => decide (c.1 < Config.frameN) && c.2 != 0)

/-- The 17 bytes `FRAME[0]` to `FRAME[16]` in index order. -/
def frameBytes (m : Memory) : List Byte := (List.range Config.frameN).map (Memory.read m)

/-- The host read port: indices 17 to 31 hold no frame byte and read `0x00` (R33). -/
def frameData (m : Memory) (addr : BitVec 5) : Byte :=
  if addr.toNat ≤ 16 then Memory.read m addr.toNat else 0x00#8

/-! ### The command cycle (R59 to R62) -/

/-- The acceptance edge (R59). RES, FRAME and FVALID are not changed; what they hold is the old value of a read
while BUSY (R135; log 19). -/
def accept (s : State) : State :=
  { s with
    set := s.now.settings.latch s.pDelayW
    cur := s.now.cmdWord
    phase := .exec
    done := false
    errKind := .none
    errValue := 0x00#8
    seqIdx := 0#9
    offer := false
    oldFrame := s.frame
    oldFvalid := s.fvalid
    seesNew := false }

/-- The completion edge (R62). -/
def complete (s : State) : State :=
  { s with phase := .idle, done := true, offer := false }

/-- `raise e(v)` (R118): the error is recorded in STATUS and the command completes. The block has no trap: no
state is saved elsewhere, no control is transferred, and there is no return from an error (R120). -/
def raiseError (e : Err) (s : State) : State :=
  complete { s with errKind := e.kind, errValue := e.value }

/-- `IllegalCommand` with the part of the word at fault (R116). -/
def illegalCommandErr (why : Illegal) (w : CmdWord) : Err := ⟨.illegalCommand, illegalValue why w⟩

/-- An illegal word in EXEC raises `IllegalCommand` and does nothing else (R60, R116). In EMIT there is none (log 11). -/
def runIllegal (why : Illegal) (s : State) : Result :=
  match s.phase with
  | .exec => .next (raiseError (illegalCommandErr why s.cur) s)
  | .emit => .fault .illegalWhileEmitting
  | .idle => .fault .phaseMismatch

/-- A non-emitting command applies its effect at one edge, which ends EXEC (R60, R61). -/
def atExec (s : State) (effect : State → State) : Result :=
  match s.phase with
  | .exec => .next (effect s)
  | .emit => .fault .phaseMismatch
  | .idle => .fault .phaseMismatch

/-- What an `enc.*` command does at completion: RES takes the zero-extended pattern, or the encoder's error is
raised and RES keeps its value (R18, R81 to R88, R118). -/
def encEffect {n : Nat} (r : Except Err (BitVec n)) (s : State) : State :=
  match r with
  | .ok v => complete { s with res := v.setWidth 24 }
  | .error e => raiseError e s

/-- An `enc.*` command is non-emitting (41_field_encoders.md section 3). -/
def encCommand {n : Nat} (r : Except Err (BitVec n)) (s : State) : Result := atExec s (encEffect r)

/-! ### Reset and the clock (R12, R29, R128, R131) -/

/-- A rising edge with `rst` = 1: every register takes its reset value (R29). The parameter, the ports, the
record for R135 and what the sink has already accepted are not the block's registers (R131; logs 6, 19). -/
def resetEdge (s : State) : State :=
  { s with
    set := Settings.zero
    cur := 0x0000#16
    res := 0x000000#24
    frame := []
    done := false
    fvalid := false
    errKind := .none
    errValue := 0x00#8
    phase := .idle
    seqIdx := 0#9
    offer := false }

/-- `cmd_ready` (R14, R29). -/
def State.cmdReady (s : State) : Bool := !s.now.rst && s.phase == .idle

/-- An edge in IDLE: a command is accepted when `cmd_valid` and `cmd_ready` are 1, else the block idles (R14, R62). -/
def idleEdge (s : State) : State := if s.now.cmdValid && s.cmdReady then accept s else s

/-- The port values of the next cycle: the first of `later`, or the resting cycle, which repeats for ever (log 2). -/
def State.nextCycle (s : State) : ClockCycle := s.later.headD s.rest.settled

/-- The next cycle's port values come in (log 1). While a command is in progress, reads that have returned its new
values go on to return them, and the next cycle's bit may begin them (R41, R43, R135; log 19). -/
def advance (s : State) : State :=
  { s with
    now := s.nextCycle
    later := s.later.tail
    seesNew := s.busy && (s.seesNew || s.nextCycle.readsNew) }

/-- `advance` under an outcome. -/
def advanceResult : Result → Result
  | .next s => .next (advance s)
  | .fault r => .fault r
  | .refused r => .refused r

/-- The edges that run no command: reset, IDLE, and EXEC while `P_LAT_CMD` has not run out (R12, R14, R61). -/
def commandFreeEdge (s : State) : Option State :=
  if s.now.rst then some (resetEdge s)
  else
    match s.phase with
    | .idle => some (idleEdge s)
    | .exec => if s.now.execWait then some s else none
    | .emit => none

/-! ### The symbol stream (R105 to R107) -/

/-- The values on `sym_code`, `sym_quad`, `sym_last` for the symbol at an index of a schedule (R106, R107). -/
def symAt (sched : List PulseSym) (i : Nat) : Option SymOut :=
  match sched[i]? with
  | some y => some ⟨y.code, symRom y, decide (i + 1 = sched.length)⟩
  | none => none

/-- The edge that ends EXEC for an emitting command (R105). The first offer may come at that very edge, when
`P_LAT_SYM` is 0 (log 10). -/
def startEmit (s : State) : State :=
  { s with phase := .emit, seqIdx := 0#9, offer := !s.now.offerWait }

/-- One edge of the loop of R106. Without an offer, one is raised unless `P_LAT_SYM` has not run out. With an
offer, a handshake passes the symbol to the sink and either completes the command or moves SEQ_IDX on by 1;
without `sym_ready` everything holds. -/
def emitEdge (sched : List PulseSym) (s : State) : Result :=
  match symAt sched s.seqIdx.toNat with
  | none => .fault .seqIdxOutOfRange
  | some y =>
    if s.offer then
      if s.now.symReady then
        let passed := { s with sink := s.sink ++ [y] }
        if y.last then .next (complete passed)
        else .next { passed with seqIdx := s.seqIdx + 1#9, offer := !s.now.offerWait }
      else .next s
    else .next { s with offer := !s.now.offerWait }

/-- An emitting command at an edge: `start` ends its EXEC, then its schedule is emitted (R60, R105, R106). -/
def emitCommand (start : State → State) (sched : List PulseSym) (s : State) : Result :=
  match s.phase with
  | .exec => .next (start s)
  | .emit => emitEdge sched s
  | .idle => .fault .phaseMismatch

/-- The host has issued a command and its acceptance edge has passed (R59): the word is in CUR, SET holds the
Settings that are on the port, and in this cycle neither reset nor `P_LAT_CMD` keeps the command from running
(log 15). -/
def issued (w : CmdWord) (s : State) : State :=
  accept { s with now := { s.now with cmdWord := w, rst := false, execWait := false } }

end Sys2Proof.Machine
end

