-- ==== Sys2Proof/Machine/Nop.lean ====
section
/-! DEFINITION. The no-operation command (R65). -/

namespace Sys2Proof.Machine

/-- `nop`: complete with no effect (R65). -/
def execNop (s : State) : Result := atExec s complete

end Sys2Proof.Machine
end

