-- ==== Sys2Proof/Machine/FieldEncoder.lean ====
section
/-! DEFINITION. The Field Encoder, the delay encoder and the `enc.*` commands (41_field_encoders.md). -/

namespace Sys2Proof.Machine

/-! ### The six field encoders (R66 to R72) -/

/-- `encode_mode` (R66). -/
def encodeMode (mode : SettingCode) : Except Err (BitVec 4) :=
  if mode = 0b00#2 then .ok 0b0011#4
  else if mode = 0b01#2 then .ok 0b0100#4
  else .error ⟨.invalidMode, mode.setWidth 8⟩

/-- `encode_timer_mode` (R67): it never fails and never gives `11`. -/
def encodeTimerMode (delay : Int) : BitVec 2 :=
  if delay = 0 then 0b00#2
  else if 0 < delay then 0b01#2
  else 0b10#2

/-- `encode_power` (R68). -/
def encodePower (power : SettingCode) : Except Err (BitVec 1) :=
  if power = 0b00#2 then .ok 0#1
  else if power = 0b01#2 then .ok 1#1
  else .error ⟨.invalidPower, power.setWidth 8⟩

/-- `encode_fan` (R69). The error carries the 8 raw bits. -/
def encodeFan (fan : Byte) : Except Err (BitVec 4) :=
  if fanValue fan = 0 then .ok 0b1011#4
  else if 1 ≤ fanValue fan ∧ fanValue fan ≤ 5 then .ok (BitVec.ofInt 4 (fanValue fan + 2))
  else .error ⟨.invalidFan, fan⟩

/-- `encode_swing` (R70). -/
def encodeSwing (swing : SettingCode) : Except Err (BitVec 4) :=
  if swing = 0b00#2 then .ok 0b0000#4
  else if swing = 0b01#2 then .ok 0b1111#4
  else .error ⟨.invalidSwing, swing.setWidth 8⟩

/-- `encode_temperature` (R71): it reads its own operand in the check and in the value (90_conflicts.md C6). -/
def encodeTemperature (temp : Byte) : Except Err (BitVec 8) :=
  if 18 ≤ tempValue temp ∧ tempValue temp ≤ 30 then .ok (BitVec.ofInt 8 (tempValue temp * 2))
  else .error ⟨.invalidTemperature, temp⟩

/-! ### The delay encoder (R73 to R80) -/

/-- The three cooperating delay bytes, frame bytes 10, 11 and 12 (R80). -/
structure DelayBytes where
  byte1 : Byte
  byte2 : Byte
  byte3 : Byte
  deriving DecidableEq, Repr

/-- The minute count `m = |delay| × 60`, exact (R73). -/
def minutes (delay : Int) : Nat := delay.natAbs * 60

/-- No timer (R74). -/
def delayNone : DelayBytes := ⟨0x00#8, 0x06#8, 0x60#8⟩

/-- On-timer (R75): bits of `m` above bit 15 appear in no byte. -/
def delayOn (m : Nat) : DelayBytes := ⟨BitVec.ofNat 8 m, BitVec.ofNat 8 (m >>> 8), 0x60#8⟩

/-- Off-timer, large (R76). -/
def delayOffLarge (m : Nat) : DelayBytes := ⟨0x00#8, BitVec.ofNat 8 m, BitVec.ofNat 8 (m >>> 8)⟩

/-- Off-timer, small (R77). -/
def delayOffSmall (m : Nat) : DelayBytes :=
  ⟨0x00#8, BitVec.ofNat 8 (0x06 ||| ((m &&& 0x0F) <<< 4)), BitVec.ofNat 8 (m >>> 4)⟩

/-- `delay_bytes` (R74 to R77). The comparison with `0xFF` is on the exact minute count (R76). -/
def delayBytes (delay : Int) : DelayBytes :=
  if delay = 0 then delayNone
  else if 0 < delay then delayOn (minutes delay)
  else if 0xFF < minutes delay then delayOffLarge (minutes delay)
  else delayOffSmall (minutes delay)

/-- RES after `enc.dly`: byte 1 in the least significant byte (R88). -/
def DelayBytes.packed (b : DelayBytes) : ResWord := b.byte3 ++ b.byte2 ++ b.byte1

/-! ### The enc.* commands (R81 to R88) -/

/-- `enc.mode` (R81). -/
def execEncMode (s : State) : Result := encCommand (encodeMode s.set.mode) s

/-- `enc.tmr` (R82). -/
def execEncTmr (s : State) : Result := encCommand (.ok (encodeTimerMode s.delay)) s

/-- `enc.pwr` (R83). -/
def execEncPwr (s : State) : Result := encCommand (encodePower s.set.power) s

/-- `enc.fan` (R84). -/
def execEncFan (s : State) : Result := encCommand (encodeFan s.set.fan) s

/-- `enc.swg` (R85). -/
def execEncSwg (s : State) : Result := encCommand (encodeSwing s.set.swing) s

/-- `enc.temp` (R86). -/
def execEncTemp (s : State) : Result := encCommand (encodeTemperature s.set.temp) s

/-- `enc.dly` (R87). -/
def execEncDly (s : State) : Result := encCommand (.ok (delayBytes s.delay).packed) s

end Sys2Proof.Machine
end

