-- ==== Sys2Proof/Machine/FrameBuilder.lean ====
section
/-! DEFINITION. The Frame Builder, its additive checksum and the `build` command (42_frame_builder.md). -/

namespace Sys2Proof.Machine

/-- `checksum(x)`: the unsigned sum of the bytes, modulo 256 (R92). -/
def checksum (x : List Byte) : Byte := BitVec.ofNat 8 (x.map BitVec.toNat).sum

/-- Byte 5: mode 7:4, the fixed separator 1 in bit 3, timer-mode 2:1, power 0 (R89, R36; 90_conflicts.md C1). -/
def byte5 (mode : BitVec 4) (tmr : BitVec 2) (pwr : BitVec 1) : Byte := mode ++ 1#1 ++ tmr ++ pwr

/-- Byte 8: fan 7:4, swing 3:0 (R89, R36). -/
def byte8 (fan swg : BitVec 4) : Byte := fan ++ swg

/-- Bytes 0 to 15 of the command frame (R89). -/
def frameBody (mode : BitVec 4) (tmr : BitVec 2) (pwr : BitVec 1) (temp : Byte) (fan swg : BitVec 4)
    (d : DelayBytes) : List Byte :=
  frameHeader ++ [byte5 mode tmr pwr, temp, 0x00, byte8 fan swg, 0x00, d.byte1, d.byte2, d.byte3]
    ++ frameTrailer

/-- A body with its checksum as the last byte (R92). -/
def withChecksum (body : List Byte) : List Byte := body ++ [checksum body]

/-- `build_command(SET)`: the checks in the order of R122; the first failure is the result (R94). -/
def buildCommand (set : Settings) (delay : Int) : Except Err (List Byte) := do
  let mode ← encodeMode set.mode
  let pwr ← encodePower set.power
  let temp ← encodeTemperature set.temp
  let fan ← encodeFan set.fan
  let swg ← encodeSwing set.swing
  return withChecksum
    (frameBody mode (encodeTimerMode delay) pwr temp fan swg (delayBytes delay))

/-- FRAME takes all 17 bytes at one edge and FVALID becomes 1 (R96, R105, R110). -/
def storeFrame (bytes : List Byte) (s : State) : State :=
  { s with frame := Memory.writeBytes s.frame 0 bytes, fvalid := true }

/-- The part that `build` and `render` share: on an error FVALID is cleared, FRAME keeps its bytes and the
error is raised; else the frame is stored and the command goes on as `onFrame` says (R96, R110). -/
def buildThen (onFrame : State → State) (s : State) : State :=
  match buildCommand s.set s.delay with
  | .ok bytes => onFrame (storeFrame bytes s)
  | .error e => raiseError e { s with fvalid := false }

/-- `build` (R96). -/
def execBuild (s : State) : Result := atExec s (buildThen complete)

end Sys2Proof.Machine
end

