-- ==== Sys2Proof/Machine/PulseEncoder.lean ====
section
/-! DEFINITION. The Pulse Encoder: the byte encoder, the render schedule and the emitting commands
(43_pulse_encoder.md). -/

namespace Sys2Proof.Machine

/-- `bitsym(x)` (R99). -/
def bitSym (x : Bool) : PulseSym := if x then .one else .zero

/-- `encode_byte(b)`: 8 symbols, bit 0 first (R34, R100). -/
def encodeByte (b : Byte) : List PulseSym := (List.range 8).map fun k => bitSym (b.getLsbD k)

/-- `encode_bytes`: the bytes in index order (R35, R100). -/
def encodeBytes (bs : List Byte) : List PulseSym := bs.flatMap encodeByte

/-- `render_seq(F)`: lead-in and STOP1, the two fixed frames, the command frame (R101). -/
def renderSeq (F : List Byte) : List PulseSym :=
  [.zero, .zero, .zero, .zero, .zero, .stop1]
    ++ ([.leader] ++ encodeBytes ff1 ++ [.stop2])
    ++ ([.leader] ++ encodeBytes ff2 ++ [.stop2])
    ++ ([.leader] ++ encodeBytes F ++ [.stop3])

/-- The bit that the sequencer takes from a frame at offset `j` from the frame's first symbol:
bit `j mod 8` of byte `j div 8` (R103). -/
def frameBitSym (F : List Byte) (j : Nat) : PulseSym := bitSym ((F.getD (j / 8) 0).getLsbD (j % 8))

/-- The symbol at index `i` of a render, computed from the index alone (the table of R103). -/
def renderSymAt (F : List Byte) (i : Nat) : PulseSym :=
  if i ≤ 4 then .zero
  else if i = 5 then .stop1
  else if i = 6 then .leader
  else if i ≤ 70 then frameBitSym ff1 (i - 7)
  else if i = 71 then .stop2
  else if i = 72 then .leader
  else if i ≤ 136 then frameBitSym ff2 (i - 73)
  else if i = 137 then .stop2
  else if i = 138 then .leader
  else if i ≤ 274 then frameBitSym F (i - 139)
  else .stop3

/-- The schedule of the current command, `sched(CUR)` (R104); empty for a word that emits nothing. -/
def State.sched (s : State) : List PulseSym :=
  match decode s.cur with
  | .legal (.emitb b) => encodeByte b
  | .legal (.emits c) => (symOfCode c).toList
  | .legal .render => renderSeq (frameBytes s.frame)
  | .legal _ => []
  | .illegal _ => []

/-- `emitb b`: the 8 bit-symbols of one byte (R108). -/
def execEmitb (b : Byte) (s : State) : Result := emitCommand startEmit (encodeByte b) s

/-- The end of EXEC for `emits c`. Codes 6 and 7 name no symbol and raise `IllegalCommand` with the operand
(R109, R116); the decoder never gives them (log 13). -/
def startEmits (c : SymCode) (s : State) : State :=
  match symOfCode c with
  | some _ => startEmit s
  | none => raiseError ⟨.illegalCommand, c.setWidth 8⟩ s

/-- `emits c`: one symbol (R109). -/
def execEmits (c : SymCode) (s : State) : Result :=
  emitCommand (startEmits c) (symOfCode c).toList s

/-- `render`: build the frame, then emit the 276 symbols (R110); on an error no symbol at all (R111). -/
def execRender (s : State) : Result :=
  emitCommand (buildThen startEmit) (renderSeq (frameBytes s.frame)) s

end Sys2Proof.Machine
end

