-- ==== Sys2Proof/Machine/Dispatch.lean ====
section
/-! DEFINITION. One arm per command: what the command in progress does at an edge that runs it (R60). -/

namespace Sys2Proof.Machine

def exec (i : Instr) (s : State) : Host.Outcome State Fault Refusal :=
  match i with
  | .nop => Sys2Proof.Machine.execNop s
  | .encMode => Sys2Proof.Machine.execEncMode s
  | .encTmr => Sys2Proof.Machine.execEncTmr s
  | .encPwr => Sys2Proof.Machine.execEncPwr s
  | .encFan => Sys2Proof.Machine.execEncFan s
  | .encSwg => Sys2Proof.Machine.execEncSwg s
  | .encTemp => Sys2Proof.Machine.execEncTemp s
  | .encDly => Sys2Proof.Machine.execEncDly s
  | .build => Sys2Proof.Machine.execBuild s
  | .emitb b => Sys2Proof.Machine.execEmitb b s
  | .emits c => Sys2Proof.Machine.execEmits c s
  | .render => Sys2Proof.Machine.execRender s

end Sys2Proof.Machine
end

