-- ==== Sys2Proof/Machine/Step.lean ====
section
/-! DEFINITION. One step is one rising edge of `clk` (R12; log 1). -/

namespace Sys2Proof.Machine

/-- One rising edge. Reset, IDLE and a running `P_LAT_CMD` need no command; at every other edge the command in
CUR is decoded (R60) and does what it does at that edge. Then the next cycle's port values come in. -/
def step (s : State) : Host.Outcome State Fault Refusal :=
  match commandFreeEdge s with
  | some t => .next (advance t)
  | none =>
    match decode (fetch s) with
    | .legal i => advanceResult (exec i s)
    | .illegal why => advanceResult (runIllegal why s)

/-- `s` with the command word issued and accepted, so that the very next step runs it (log 15). -/
def State.withFetchWord (s : State) (nbits w : Nat) : State :=
  issued (BitVec.ofNat 16 (w % 2 ^ nbits)) s

end Sys2Proof.Machine
end

