-- ==== Sys2Proof/Machine/Assembler.lean ====
section
/-! DEFINITION. The host's assembler: one command per line, the `.set` directive, and the listing form
(R56 to R58). What R56 and R57 do not say about blanks and digits is the model's choice (log 17). -/

namespace Sys2Proof.Machine

/-! ### Lexical helpers -/

/-- A space or a tab separates the parts of a line. -/
def isBlank (c : Char) : Bool := c == ' ' || c == '\t'

/-- `;` starts a comment that runs to the end of the line (R56). -/
def stripComment (l : List Char) : List Char := l.takeWhile (fun c => c != ';')

/-- Cut a text at every character that `p` selects. -/
def splitBy (p : Char → Bool) : List Char → List (List Char)
  | [] => [[]]
  | c :: cs =>
    match splitBy p cs with
    | [] => [[c]]
    | w :: ws => if p c then [] :: w :: ws else (c :: w) :: ws

/-- The parts of a text between blanks. -/
def tokens (l : List Char) : List (List Char) := (splitBy isBlank l).filter (fun w => !w.isEmpty)

/-- The value of a digit: 0 to 9, then a to f in either case. -/
def digitValue (c : Char) : Option Nat :=
  if '0' ≤ c ∧ c ≤ '9' then some (c.toNat - '0'.toNat)
  else if 'a' ≤ c ∧ c ≤ 'f' then some (c.toNat - 'a'.toNat + 10)
  else if 'A' ≤ c ∧ c ≤ 'F' then some (c.toNat - 'A'.toNat + 10)
  else none

/-- Read digits of a base after those that gave `acc`. -/
def readDigits (base : Nat) : Nat → List Char → Option Nat
  | acc, [] => some acc
  | acc, c :: cs =>
    match digitValue c with
    | some d => if d < base then readDigits base (acc * base + d) cs else none
    | none => none

/-- A non-empty decimal numeral. -/
def readDecimal : List Char → Option Nat
  | [] => none
  | c :: cs => readDigits 10 0 (c :: cs)

/-- An unsigned numeral, in decimal or as `0x` hex (R56). -/
def readNat : List Char → Option Nat
  | '0' :: 'x' :: c :: cs => readDigits 16 0 (c :: cs)
  | l => readDecimal l

/-- A decimal integer (R57). -/
def readInt : List Char → Option Int
  | '-' :: l => (readDecimal l).map fun n => -(n : Int)
  | l => (readDecimal l).map fun n => (n : Int)

/-! ### Commands (R56) -/

/-- The mnemonic of a command (R47). -/
def mnemonicText : Instr → List Char
  | .nop => "nop".toList
  | .encMode => "enc.mode".toList
  | .encTmr => "enc.tmr".toList
  | .encPwr => "enc.pwr".toList
  | .encFan => "enc.fan".toList
  | .encSwg => "enc.swg".toList
  | .encTemp => "enc.temp".toList
  | .encDly => "enc.dly".toList
  | .build => "build".toList
  | .emitb _ => "emitb".toList
  | .emits _ => "emits".toList
  | .render => "render".toList

/-- The commands whose mnemonic takes no operand (R46). -/
def operandlessCommands : List Instr :=
  [.nop, .encMode, .encTmr, .encPwr, .encFan, .encSwg, .encTemp, .encDly, .build, .render]

/-- The symbol names of the `emits` operand (R56). -/
def symNameText : PulseSym → List Char
  | .zero => "zero".toList
  | .one => "one".toList
  | .leader => "leader".toList
  | .stop1 => "stop1".toList
  | .stop2 => "stop2".toList
  | .stop3 => "stop3".toList

/-- The six symbols in the order of their codes (R55). -/
def allSyms : List PulseSym := [.zero, .one, .leader, .stop1, .stop2, .stop3]

/-- The `emitb` operand: an integer 0..255 (R56). -/
def readByteOperand (t : List Char) : Option Byte :=
  match readNat t with
  | some n => if n ≤ 255 then some (BitVec.ofNat 8 n) else none
  | none => none

/-- The `emits` operand: a symbol name, or its code 0..5 (R56). -/
def readSymOperand (t : List Char) : Option SymCode :=
  match allSyms.find? (fun y => symNameText y == t) with
  | some y => some y.code
  | none =>
    match readDecimal t with
    | some n => if n ≤ 5 then some (BitVec.ofNat 3 n) else none
    | none => none

/-- The command of a line's parts; none is an assembly error (R56). -/
def readCommand : List (List Char) → Option Instr
  | [m] => operandlessCommands.find? (fun i => mnemonicText i == m)
  | [m, t] =>
    if m = "emitb".toList then (readByteOperand t).map Instr.emitb
    else if m = "emits".toList then (readSymOperand t).map Instr.emits
    else none
  | _ => none

/-! ### The .set directive (R57) and the merge rule (R5) -/

/-- The port fields that a `.set` names. -/
structure SettingsChange where
  power : Option SettingCode
  fan   : Option Byte
  swing : Option SettingCode
  temp  : Option Byte
  mode  : Option SettingCode
  delay : Option Nat
  deriving DecidableEq, Repr

/-- No field named. -/
def SettingsChange.none : SettingsChange := ⟨.none, .none, .none, .none, .none, .none⟩

/-- Override present: replace; override absent: keep (R5, R57). -/
def Settings.merge (p : Settings) (c : SettingsChange) : Settings where
  power := c.power.getD p.power
  fan := c.fan.getD p.fan
  swing := c.swing.getD p.swing
  temp := c.temp.getD p.temp
  mode := c.mode.getD p.mode
  delay := c.delay.getD p.delay

/-- An enumerated value: one of its two names, or `#n` for the raw code n in 0..3 (R57). -/
def readCode (name0 name1 : List Char) (t : List Char) : Option SettingCode :=
  if t = name0 then some 0
  else if t = name1 then some 1
  else
    match t with
    | '#' :: ds =>
      match readDecimal ds with
      | some n => if n ≤ 3 then some (BitVec.ofNat 2 n) else none
      | none => none
    | _ => none

/-- A decimal integer in the range of a `W`-bit two's-complement port, as the unsigned value of its bits (R54, R57). -/
def readPortInt (W : Nat) (t : List Char) : Option Nat :=
  match readInt t with
  | some n => if -(2 ^ W : Int) ≤ 2 * n ∧ 2 * n < (2 ^ W : Int) then some (BitVec.ofInt W n).toNat else none
  | none => none

/-- One `field=value` of a `.set`, added to the fields named before it. -/
def readAssignment (W : Nat) (c : SettingsChange) (item : List Char) : Option SettingsChange :=
  match splitBy (fun ch => ch == '=') item with
  | [f, v] =>
    if f = "power".toList then
      (readCode "off".toList "on".toList v).map fun x => { c with power := some x }
    else if f = "fan".toList then
      (readPortInt 8 v).map fun x => { c with fan := some (BitVec.ofNat 8 x) }
    else if f = "swing".toList then
      (readCode "off".toList "on".toList v).map fun x => { c with swing := some x }
    else if f = "temp".toList then
      (readPortInt 8 v).map fun x => { c with temp := some (BitVec.ofNat 8 x) }
    else if f = "mode".toList then
      (readCode "cool".toList "heat".toList v).map fun x => { c with mode := some x }
    else if f = "delay".toList then
      (readPortInt W v).map fun x => { c with delay := some x }
    else none
  | _ => none

/-- The comma-separated assignments of a `.set`, in order. -/
def readAssignments (W : Nat) : SettingsChange → List (List Char) → Option SettingsChange
  | c, [] => some c
  | c, item :: items =>
    match tokens item with
    | [t] =>
      match readAssignment W c t with
      | some c' => readAssignments W c' items
      | none => none
    | _ => none

/-! ### Lines, programs and the listing (R56, R58) -/

/-- What a source line is. -/
inductive AsmLine where
  | blank
  | command (i : Instr)
  | set (c : SettingsChange)
  deriving DecidableEq, Repr

/-- One source line, for a delay port of `W` bits; none is an assembly error, which produces no word (R56). -/
def assembleLine (W : Nat) (l : List Char) : Option AsmLine :=
  let code := stripComment l
  match tokens code with
  | [] => some .blank
  | t :: ts =>
    if t = ".set".toList then
      (readAssignments W .none
        (splitBy (fun ch => ch == ',') ((code.dropWhile isBlank).drop 4))).map AsmLine.set
    else (readCommand (t :: ts)).map AsmLine.command

/-- A program: each command's word with the Settings the host drives for it (R57, R58). An assembly error in any
line leaves no program at all; R56 says only that the line gives no word, the rest is the model's choice (log 17). -/
def assembleProgram (W : Nat) : Settings → List (List Char) → Option (List (Settings × CmdWord))
  | _, [] => some []
  | p, l :: ls =>
    match assembleLine W l with
    | none => none
    | some .blank => assembleProgram W p ls
    | some (.set c) => assembleProgram W (p.merge c) ls
    | some (.command i) => (assembleProgram W p ls).map fun rest => (p, encode i) :: rest

/-- An uppercase hex digit. -/
def hexDigitUpper (n : Nat) : Char := "0123456789ABCDEF".toList.getD n '0'

/-- The operand of a command as a listing shows it, with the blank before it. R56 gives no form; that a symbol is shown
by its name and a byte as `0x` and two digits, whatever the source line wrote, is the model's choice (log 17). -/
def operandText : Instr → List Char
  | .emitb b => [' ', '0', 'x', hexDigitUpper (b.toNat / 16), hexDigitUpper (b.toNat % 16)]
  | .emits c =>
    match symOfCode c with
    | some y => ' ' :: symNameText y
    | none => [' ', hexDigitUpper c.toNat]
  | .nop | .encMode | .encTmr | .encPwr | .encFan | .encSwg | .encTemp | .encDly => []
  | .build | .render => []

/-- A command's source line (R56). -/
def sourceLine (i : Instr) : List Char := mnemonicText i ++ operandText i

/-- A word in four hex digits (R56). -/
def wordText (w : CmdWord) : List Char :=
  [hexDigitUpper (w.toNat / 4096), hexDigitUpper (w.toNat / 256 % 16),
    hexDigitUpper (w.toNat / 16 % 16), hexDigitUpper (w.toNat % 16)]

/-- A listing line: the word in four hex digits before the command (R56). -/
def listingLine (i : Instr) : List Char := wordText (encode i) ++ "  ".toList ++ sourceLine i

end Sys2Proof.Machine
end

