-- ==== Sys2Proof/Machine/Ports.lean ====
section
/-! DEFINITION. The output ports (R13) of a cycle, as functions of the registers and of the cycle's inputs, and what
a host's read of them returns (R135). -/

namespace Sys2Proof.Machine

/-- The output ports of R13. -/
structure Outputs where
  cmdReady  : Bool
  status    : StatusWord
  res       : ResWord
  frameData : Byte
  symValid  : Bool
  symCode   : SymCode
  symQuad   : Quad
  symLast   : Bool
  deriving DecidableEq, Repr

/-- The symbol on offer: that of `sched(CUR)` at SEQ_IDX while OFFER is 1 (R26, R106). -/
def State.offered (s : State) : Option SymOut :=
  if s.offer then symAt s.sched s.seqIdx.toNat else none

/-- The registers that `status`, `res` and `frame_data` show: the reset values while `rst` is 1 (R29; log 9). -/
def State.shown (s : State) : State := if s.now.rst then resetEdge s else s

/-- The output ports in the current cycle. `cmd_ready` and `sym_valid` are 0 while `rst` is 1 (R14, R29); without an
offer the three symbol outputs read 0 (R26). -/
def State.outputs (s : State) : Outputs where
  cmdReady := s.cmdReady
  status := s.shown.status
  res := s.shown.res
  frameData := frameData s.shown.frame s.now.frameAddr
  symValid := s.offer && !s.now.rst
  symCode := (s.offered.map SymOut.code).getD 0
  symQuad := (s.offered.map SymOut.quad).getD 0
  symLast := (s.offered.map SymOut.last).getD false

/-! ### The host's reads (R41, R135; log 19) -/

/-- The next state of a result, or `s` where it has none. -/
def nextOr (s : State) : Result → State
  | .next t => t
  | .fault _ => s
  | .refused _ => s

/-- What the registers hold once the command in EXEC has applied its effects (R60, R61, R105). -/
def State.execOutcome (s : State) : State :=
  match decode (fetch s) with
  | .legal i => nextOr s (exec i s)
  | .illegal why => nextOr s (runIllegal why s)

/-- The registers before the update edge of the command in progress. -/
def State.oldView (s : State) : State :=
  match s.phase with
  | .idle => s
  | .exec => s
  | .emit => { s with frame := s.oldFrame, fvalid := s.oldFvalid }

/-- The registers after that edge, BUSY and DONE with the others (R41): for a command that emits nothing the edge
completes it, for `render` it stores FRAME and FVALID, and the completion is another edge. In EXEC they are what the
command leaves if no reset comes; that a later reset, which aborts it (R131), does not withdraw a read of them from
the cycles before is the model's choice (log 19). -/
def State.newView (s : State) : State :=
  match s.phase with
  | .idle => s
  | .exec => s.execOutcome
  | .emit => s

/-- The registers that all of the host's reads in the current cycle are from: all old or all new, never a mix (R41);
in a cycle with `rst` = 1, what the ports show (R29; log 9). -/
def State.readView (s : State) : State :=
  if s.now.rst then s.shown
  else if s.seesNew then s.newView
  else s.oldView

/-- What the host's reads of `status`, `res` and `frame_data` in one cycle return. -/
structure HostRead where
  status    : StatusWord
  res       : ResWord
  frameData : Byte
  deriving DecidableEq, Repr

/-- What reads of the three ports give in a cycle if the registers are those of `v`. -/
def readOf (v : State) (addr : BitVec 5) : HostRead := ⟨v.status, v.res, frameData v.frame addr⟩

/-- The host's reads in the current cycle (R135). -/
def State.hostRead (s : State) : HostRead := readOf s.readView s.now.frameAddr

end Sys2Proof.Machine
end

