-- ==== Sys2Proof/Machine/Text.lean ====
section
/-! DEFINITION. The text form that the host writes from the symbol stream (R112, R113; log 16). -/

namespace Sys2Proof.Machine

/-- A lowercase hex digit. -/
def hexDigitLower (n : Nat) : Char := "0123456789abcdef".toList.getD n '0'

/-- `0x` and two lowercase hex digits (R112). -/
def byteText (b : Byte) : List Char :=
  ['0', 'x', hexDigitLower (b.toNat / 16), hexDigitLower (b.toNat % 16)]

/-- The four fields F0 to F3 of a quadruple, F0 first (R97). -/
def quadFields (q : Quad) : List Byte :=
  [q.extractLsb' 24 8, q.extractLsb' 16 8, q.extractLsb' 8 8, q.extractLsb' 0 8]

/-- A symbol's text: its fields joined by commas, and one more comma after every symbol but STOP3 (R112). -/
def symText (y : SymOut) : List Char :=
  List.intercalate [','] ((quadFields y.quad).map byteText)
    ++ (if y.code = PulseSym.stop3.code then [] else [','])

/-- The text of a stream: the symbols' texts in stream order with nothing between them (R112). -/
def streamText (ys : List SymOut) : List Char := ys.flatMap symText

end Sys2Proof.Machine
end

