-- ==== Sys2Proof/Machine/Transaction.lean ====
section
/-! DEFINITION. The transaction view of a command (R64): one accepted command as one function, without cycles.
The step does not use it; the statements compare runs of the step with it. -/

namespace Sys2Proof.Machine

/-- The part of the state that the transaction view speaks of: RES, FRAME and FVALID (R64). -/
structure Visible where
  res    : ResWord
  frame  : Memory
  fvalid : Bool
  deriving DecidableEq, Repr

/-- What one accepted command yields: the registers at completion, the symbols handed to the sink in order, and
none or one error (R64). -/
structure Yield where
  after : Visible
  syms  : List SymOut
  err   : Option Err
  deriving DecidableEq, Repr

/-- A schedule as the sink receives it: `sym_last` on the last symbol only (R107). -/
def stamp : List PulseSym → List SymOut
  | [] => []
  | [y] => [⟨y.code, symRom y, true⟩]
  | y :: z :: ys => ⟨y.code, symRom y, false⟩ :: stamp (z :: ys)

/-- An `enc.*` command as a transaction (R81 to R87). -/
def encYield {n : Nat} (r : Except Err (BitVec n)) (v : Visible) : Yield :=
  match r with
  | .ok x => ⟨{ v with res := x.setWidth 24 }, [], none⟩
  | .error e => ⟨v, [], some e⟩

/-- `build` or `render` as a transaction, with the symbols that a built frame gives (R96, R110, R111). -/
def buildYield (syms : List Byte → List SymOut) (r : Except Err (List Byte)) (v : Visible) : Yield :=
  match r with
  | .ok F => ⟨{ v with frame := Memory.writeBytes v.frame 0 F, fvalid := true }, syms F, none⟩
  | .error e => ⟨{ v with fvalid := false }, [], some e⟩

/-- `exec(w, S, st)` of R64 for a command word, the Settings at acceptance with their delay in hours, and the
registers before acceptance. -/
def transact (w : CmdWord) (S : Settings) (delay : Int) (v : Visible) : Yield :=
  match decode w with
  | .illegal why => ⟨v, [], some (illegalCommandErr why w)⟩
  | .legal .nop => ⟨v, [], none⟩
  | .legal .encMode => encYield (encodeMode S.mode) v
  | .legal .encTmr => encYield (.ok (encodeTimerMode delay)) v
  | .legal .encPwr => encYield (encodePower S.power) v
  | .legal .encFan => encYield (encodeFan S.fan) v
  | .legal .encSwg => encYield (encodeSwing S.swing) v
  | .legal .encTemp => encYield (encodeTemperature S.temp) v
  | .legal .encDly => encYield (.ok (delayBytes delay).packed) v
  | .legal .build => buildYield (fun _ => []) (buildCommand S delay) v
  | .legal (.emitb b) => ⟨v, stamp (encodeByte b), none⟩
  | .legal (.emits c) => ⟨v, stamp (symOfCode c).toList, none⟩
  | .legal .render => buildYield (fun F => stamp (renderSeq F)) (buildCommand S delay) v

/-- The registers of a state that the transaction view speaks of. -/
def State.visible (s : State) : Visible := ⟨s.res, s.frame, s.fvalid⟩

/-- The error that STATUS reports: none when ERR_KIND is 0 (R24, R114). -/
def State.reportedErr (s : State) : Option Err :=
  if s.errKind = .none then none else some ⟨s.errKind, s.errValue⟩

end Sys2Proof.Machine
end

