-- ==== Sys2Proof/Safety.lean ====
section
/-! DEFINITION. What counts as a safe run: the invariant of the block's registers, and runs of the step. -/

namespace Sys2Proof.Machine

/-! ### The invariant -/

/-- Whether an error value is one that its kind can carry: the offending value of the field, outside the field's
domain; 0 for no error (R20, R114, R115). -/
def errValueFits (k : ErrKind) (v : Byte) : Bool :=
  match k with
  | .none => v == 0
  | .invalidMode => v == 2 || v == 3
  | .invalidPower => v == 2 || v == 3
  | .invalidFan => !(decide (0 ≤ fanValue v) && decide (fanValue v ≤ 5))
  | .invalidSwing => v == 2 || v == 3
  | .invalidTemperature => !(decide (18 ≤ tempValue v) && decide (tempValue v ≤ 30))
  | .illegalCommand => true

/-- Byte 5 of a frame: the separator bit is 1, the mode nibble is cool or heat, and the low three bits are not
`11x` (R90, 93 U11). -/
def byte5Fits (b : Byte) : Bool :=
  b.getLsbD 3 && (b.extractLsb' 4 4 == 0b0011#4 || b.extractLsb' 4 4 == 0b0100#4)
    && b.extractLsb' 1 2 != 0b11#2

/-- Byte 8 of a frame: a fan nibble of `encode_fan` and a swing nibble of `encode_swing` (R91). -/
def byte8Fits (b : Byte) : Bool :=
  (b.extractLsb' 4 4 == 0b1011#4 || (decide (3 ≤ b.toNat / 16) && decide (b.toNat / 16 ≤ 7)))
    && (b.extractLsb' 0 4 == 0b0000#4 || b.extractLsb' 0 4 == 0b1111#4)

/-- 17 bytes that form a command frame: the fixed bytes of R89 in place, the packed bytes within their values
(R90, R91), an even temperature byte 36..60 (R71), and the checksum of the first 16 bytes last (R92). -/
def isCommandFrame (F : List Byte) : Bool :=
  F.length == Config.frameN && F.take 5 == frameHeader && byte5Fits (F.getD 5 0)
    && decide (36 ≤ (F.getD 6 0).toNat) && decide ((F.getD 6 0).toNat ≤ 60)
    && decide ((F.getD 6 0).toNat % 2 = 0) && F.getD 7 0 == 0 && byte8Fits (F.getD 8 0)
    && F.getD 9 0 == 0 && (F.drop 13).take 3 == frameTrailer
    && F.getD 16 0 == checksum (F.take 16)

/-- A symbol that the stream may carry: one of the six codes with its own quadruple (R55, R97, 93 U9). -/
def SymOut.fits (y : SymOut) : Bool :=
  match symOfCode y.code with
  | some x => y.quad == symRom x
  | none => false

/-- Where the sequencer may stand in each PHASE (R26, R59, R105, R106). In EMIT, SEQ_IDX is below the length of
the command's schedule, so CUR is an emitting command. -/
def seqFits (s : State) : Bool :=
  match s.phase with
  | .idle => !s.offer
  | .exec => !s.offer && s.seqIdx == 0
  | .emit => decide (s.seqIdx.toNat < s.sched.length)

/-- While `render` emits, FRAME is the frame it built from SET and FVALID is 1 (R44, R110). -/
def renderFits (s : State) : Bool :=
  if s.phase = .emit ∧ decode s.cur = .legal .render then
    s.fvalid && decide (buildCommand s.set s.delay = .ok (frameBytes s.frame))
  else true

/-- Whether the command in progress has updated FRAME and FVALID and goes on: only `render` does (R41, R105). -/
def emitsRender (s : State) : Bool := s.phase == .emit && decide (decode s.cur = .legal .render)

/-- The invariant that every edge keeps. -/
structure State.Inv (s : State) : Prop where
  /-- `P_DELAY_W ≥ 2` (93 U16) -/
  width : Config.leastDelayW ≤ s.pDelayW
  /-- SET.DELAY has `P_DELAY_W` bits (R16). -/
  delayBits : s.set.delay < 2 ^ s.pDelayW
  /-- FRAME is in canonical form (log 8). -/
  frameForm : Memory.wf s.frame = true
  /-- ERR_VALUE is a value of its ERR_KIND (R114, R115). -/
  errFits : errValueFits s.errKind s.errValue = true
  /-- While a command is in progress, DONE is 0 and no error is reported (R22, R24). -/
  busyClear : s.busy = true → s.done = false ∧ s.errKind = .none
  /-- The sequencer's registers agree with PHASE and CUR. -/
  seq : seqFits s = true
  /-- FVALID says that FRAME holds a built frame (R23). -/
  frameValid : s.fvalid = true → isCommandFrame (frameBytes s.frame) = true
  /-- What `render` emits is the frame of its own SET. -/
  render : renderFits s = true
  /-- The FRAME that acceptance found is in canonical form (log 19). -/
  oldFrameForm : Memory.wf s.oldFrame = true
  /-- While a command is in progress, FRAME and FVALID are what acceptance found, unless `render` has already stored
  its frame (R41; log 19). -/
  oldHeld : s.busy = true → emitsRender s = false → s.oldFrame = s.frame ∧ s.oldFvalid = s.fvalid
  /-- Every symbol that has passed is one of the six. -/
  symbols : s.sink.all SymOut.fits = true

/-! ### Runs -/

/-- The port values of the cycle that is `k` cycles after the current one, without end (logs 1, 2). -/
def State.cycleAt (s : State) (k : Nat) : ClockCycle := ((s.now :: s.later)[k]?).getD s.rest.settled

/-- The state after a number of edges, if the machine never stops on the way. -/
def run : Nat → State → Option State
  | 0, s => some s
  | n + 1, s =>
    match step s with
    | .next t => run n t
    | .fault _ => none
    | .refused _ => none

/-- The state after a number of edges at each of which a command is in progress and `rst` is 0. -/
def runCommand : Nat → State → Option State
  | 0, s => some s
  | n + 1, s =>
    if s.busy && !s.now.rst then
      match step s with
      | .next t => runCommand n t
      | .fault _ => none
      | .refused _ => none
    else none

/-- A run that never stops: the machine answers a next state at every edge. -/
def NeverStops (s : State) : Prop := ∀ n, ∃ t, run n s = some t

/-- A cycle in which neither reset, nor an internal latency, nor the sink holds the block back. -/
def ClockCycle.unhindered (c : ClockCycle) : Bool := !c.rst && c.symReady && !c.execWait && !c.offerWait

/-- The edges a command in progress may still need when nothing holds it back: one to end EXEC or to raise an
offer, and one handshake for each of at most 276 symbols (R102, R139). -/
abbrev unhinderedBound : Nat := 1 + Config.renderN

/-! ### Named forms that the statements share -/

/-- The symbol at an index of a schedule of `N` symbols, as the stream carries it (R97, R107). -/
def streamed (y : PulseSym) (i N : Nat) : SymOut := ⟨y.code, symRom y, decide (i + 1 = N)⟩

/-- What a command in EMIT does at an edge when the symbol due is `y`, the one at SEQ_IDX of `N` (R106): without
an offer it raises one unless `P_LAT_SYM` has not run out; an offer that is not taken holds; a handshake passes
the symbol, and completes the command or moves SEQ_IDX on by 1. The wait bit is log 3's, the earliest edge of the
next offer log 10's. -/
def EmitsAtThisEdge (i : Instr) (s : State) (y : PulseSym) (N : Nat) : Prop :=
  (s.offer = false → exec i s = .next { s with offer := !s.now.offerWait }) ∧
  (s.offer = true → s.now.symReady = false → exec i s = .next s) ∧
  (s.offer = true → s.now.symReady = true → s.seqIdx.toNat + 1 < N →
    exec i s = .next { s with
      sink := s.sink ++ [streamed y s.seqIdx.toNat N]
      seqIdx := s.seqIdx + 1#9
      offer := !s.now.offerWait }) ∧
  (s.offer = true → s.now.symReady = true → s.seqIdx.toNat + 1 = N →
    exec i s = .next { s with
      sink := s.sink ++ [streamed y s.seqIdx.toNat N]
      phase := .idle
      done := true
      offer := false })

/-- The commands `enc.*` (R15). -/
def encCommands : List Instr :=
  [.encMode, .encTmr, .encPwr, .encFan, .encSwg, .encTemp, .encDly]

/-- The `emits` and `emitb` commands that give the symbols of a render by hand (R58; program P4 of
95_test_vectors.md). -/
def handRender (F : List Byte) : List Instr :=
  [.emits 0, .emits 0, .emits 0, .emits 0, .emits 0, .emits 3]
    ++ ([.emits 2] ++ ff1.map Instr.emitb ++ [.emits 4])
    ++ ([.emits 2] ++ ff2.map Instr.emitb ++ [.emits 4])
    ++ ([.emits 2] ++ F.map Instr.emitb ++ [.emits 5])

/-- The code and quadruple of a symbol on the stream, without `sym_last` (R58). -/
def SymOut.symbolValue (y : SymOut) : SymCode × Quad := (y.code, y.quad)

end Sys2Proof.Machine
end

