-- ==== Sys2Proof/Certificates/Slice0/Obligations.lean ====
section
/-! DEFINITION. The statements for the provers. Each docstring names the rule that its statement formalises, and the
log entry where a clause is the model's own choice. -/

open Sys2Proof Sys2Proof.Machine

/-- Every well-formed command is read back from its own word (R46, R47, R48). -/
def Obligations.DecodeInvertsEncode : Prop :=
  ∀ i : Instr, i.wf = true → decode (encode i) = .legal i

/-- A legal word has one meaning, and that command has no other word (R47, R48). -/
def Obligations.EncodeInvertsDecode : Prop :=
  ∀ (w : CmdWord) (i : Instr), decode w = .legal i → i.wf = true ∧ encode i = w

/-- The decoder is total and sorts every word as R48 says; 272 words are legal. -/
def Obligations.EveryWordHasOneVerdict : Prop :=
  (∀ op rsv opnd : Nat, op < 16 → rsv < 16 → opnd < 256 →
    let w : CmdWord := BitVec.ofNat 16 (op * 4096 + rsv * 256 + opnd)
    (12 ≤ op → decode w = .illegal .reservedOpcode) ∧
    (op < 12 → rsv ≠ 0 → decode w = .illegal .reservedBits) ∧
    (op = 9 → rsv = 0 → decode w = .legal (.emitb (BitVec.ofNat 8 opnd))) ∧
    (op = 10 → rsv = 0 → opnd ≤ 5 → decode w = .legal (.emits (BitVec.ofNat 3 opnd))) ∧
    (op = 10 → rsv = 0 → 5 < opnd → decode w = .illegal .badOperand) ∧
    (op < 12 → op ≠ 9 → op ≠ 10 → rsv = 0 → opnd ≠ 0 → decode w = .illegal .badOperand) ∧
    (rsv = 0 → opnd = 0 →
      (op = 0 → decode w = .legal .nop) ∧ (op = 1 → decode w = .legal .encMode) ∧
      (op = 2 → decode w = .legal .encTmr) ∧ (op = 3 → decode w = .legal .encPwr) ∧
      (op = 4 → decode w = .legal .encFan) ∧ (op = 5 → decode w = .legal .encSwg) ∧
      (op = 6 → decode w = .legal .encTemp) ∧ (op = 7 → decode w = .legal .encDly) ∧
      (op = 8 → decode w = .legal .build) ∧ (op = 11 → decode w = .legal .render))) ∧
  (∃ words : List CmdWord, words.Nodup ∧ words.length = 272 ∧
    ∀ w, (∃ i, decode w = .legal i) ↔ w ∈ words)

/-- Sanity: words from the encoding column (R47) and from the decode vectors. -/
def Obligations.SampleWordsDecodeAsTheMapSays : Prop :=
  decode 0b0000000000000000#16 = .legal .nop ∧
  decode 0b0100000000000000#16 = .legal .encFan ∧
  decode 0b1000000000000000#16 = .legal .build ∧
  decode 0b1001000010100101#16 = .legal (.emitb 0xA5) ∧
  decode 0b1010000000000101#16 = .legal (.emits 5) ∧
  decode 0b1011000000000000#16 = .legal .render ∧
  decode 0xA006#16 = .illegal .badOperand ∧
  decode 0xC1FF#16 = .illegal .reservedOpcode

/-- While a command is in progress the step is `exec` of what CUR decodes to (R60); around it the step only lets the next cycle's port values in (log 1). -/
def Obligations.StepRunsTheCommandInCur : Prop :=
  ∀ (s : State) (i : Instr), s.now.rst = false →
    (s.phase = .exec ∧ s.now.execWait = false) ∨ s.phase = .emit →
    decode s.cur = .legal i → step s = advanceResult (exec i s)

/-- What `withFetchWord` places is run by the next step (log 15). -/
def Obligations.IssuedWordRunsAtTheNextStep : Prop :=
  ∀ (s : State) (nbits w : Nat) (i : Instr), decodeTableWord nbits w = some i →
    step (s.withFetchWord nbits w) = advanceResult (exec i (s.withFetchWord nbits w))

/-- `cmd_ready` and acceptance (R14): without an accepted command an idle block stays idle. -/
def Obligations.CommandReadyAndAcceptance : Prop :=
  ∀ s : State,
    (s.outputs.cmdReady = true ↔ s.now.rst = false ∧ s.phase = .idle) ∧
    (s.phase = .idle → ∃ t, step s = .next t ∧
      (t.busy = true ↔ s.now.cmdValid = true ∧ s.outputs.cmdReady = true))

/-- The acceptance edge (R59). -/
def Obligations.AcceptanceLoadsTheCommand : Prop :=
  ∀ s : State, s.now.rst = false → s.now.cmdValid = true → s.outputs.cmdReady = true →
    ∃ t, step s = .next t ∧
      t.set.power = s.now.settings.power ∧ t.set.fan = s.now.settings.fan ∧
      t.set.swing = s.now.settings.swing ∧ t.set.temp = s.now.settings.temp ∧
      t.set.mode = s.now.settings.mode ∧
      (s.now.settings.delay < 2 ^ s.pDelayW → t.set.delay = s.now.settings.delay) ∧
      t.cur = s.now.cmdWord ∧ t.phase = .exec ∧ t.busy = true ∧ t.outputs.cmdReady = false ∧
      t.done = false ∧ t.errKind = .none ∧ t.errValue = 0x00#8 ∧
      t.seqIdx = 0#9 ∧ t.offer = false ∧
      t.res = s.res ∧ (∀ a, Memory.read t.frame a = Memory.read s.frame a) ∧
      t.fvalid = s.fvalid ∧ t.sink = s.sink ∧ t.pDelayW = s.pDelayW

/-- The command port is not sampled while `cmd_ready` is 0 (R133); Settings are sampled only at the acceptance edge (R134). -/
def Obligations.PortsAreSampledOnlyAtAcceptance : Prop :=
  ∀ (s : State) (p : Settings) (w : CmdWord),
    (s.outputs.cmdReady = false → ∀ (v : Bool) (a : BitVec 5),
      step { s with
        now := { s.now with settings := p, cmdWord := w, cmdValid := v, frameAddr := a } }
        = step s) ∧
    (s.now.cmdValid = false →
      step { s with now := { s.now with settings := p, cmdWord := w } } = step s)

/-- With BUSY = 0 the registers, and after a read of BUSY = 0 and DONE = 1 what is read, stay unchanged until the next acceptance (R43). Which reads are new is log 19's. -/
def Obligations.OutcomeHoldsUntilTheNextAcceptance : Prop :=
  (∀ s : State, s.busy = false → s.now.rst = false →
    ¬(s.now.cmdValid = true ∧ s.outputs.cmdReady = true) → step s = .next (advance s)) ∧
  (∀ s t : State, step s = .next t → s.now.rst = false → t.now.rst = false →
    ¬(s.now.cmdValid = true ∧ s.outputs.cmdReady = true) →
    s.hostRead.status.getLsbD 0 = false → s.hostRead.status.getLsbD 1 = true →
    t.hostRead.status = s.hostRead.status ∧ t.hostRead.res = s.hostRead.res ∧
    (t.now.frameAddr = s.now.frameAddr → t.hostRead.frameData = s.hostRead.frameData))

/-- No effect of a command takes place before its completion edge (R61); the wait bit is the model's (log 3). -/
def Obligations.ExecLastsWhileItsLatencyRuns : Prop :=
  ∀ s : State, s.phase = .exec → s.now.rst = false → s.now.execWait = true →
    step s = .next (advance s)

/-- The reset edge (R128, with the values of R29), during a command too (R131). -/
def Obligations.ResetEdgeWinsFromEveryState : Prop :=
  ∀ s : State, s.now.rst = true →
    s.outputs.cmdReady = false ∧ s.outputs.symValid = false ∧
    ∃ t, step s = .next t ∧
      t.set = ⟨0, 0, 0, 0, 0, 0⟩ ∧ t.cur = 0x0000#16 ∧ t.res = 0x000000#24 ∧
      (∀ a, Memory.read t.frame a = 0x00#8) ∧ t.status = 0x0000#16 ∧
      t.done = false ∧ t.fvalid = false ∧ t.errKind = .none ∧ t.errValue = 0x00#8 ∧
      t.phase = .idle ∧ t.seqIdx = 0#9 ∧ t.offer = false ∧ t.sink = s.sink ∧
      t.outputs.symValid = false ∧ t.outputs.status = 0x0000#16 ∧
      t.outputs.res = 0x000000#24 ∧ t.outputs.frameData = 0x00#8 ∧
      (t.now.rst = false → t.outputs.cmdReady = true ∧
        (t.now.cmdValid = true → ∃ u, step t = .next u ∧ u.phase = .exec ∧ u.cur = t.now.cmdWord))

/-- The values of R29. The sink is the model's (log 6). -/
def Obligations.ResetStateHasTheResetValues : Prop :=
  State.reset.set = ⟨0, 0, 0, 0, 0, 0⟩ ∧ State.reset.cur = 0x0000#16 ∧
  State.reset.res = 0x000000#24 ∧ (∀ a, Memory.read State.reset.frame a = 0x00#8) ∧
  State.reset.done = false ∧ State.reset.fvalid = false ∧ State.reset.busy = false ∧
  State.reset.errKind = .none ∧ State.reset.errValue = 0x00#8 ∧
  State.reset.phase = .idle ∧ State.reset.seqIdx = 0#9 ∧ State.reset.offer = false ∧
  State.reset.status = 0x0000#16 ∧ State.reset.sink = []

/-- BUSY and DONE (R21, R22). -/
def Obligations.BusyAndDoneFollowTheLifecycle : Prop :=
  (∀ s : State, s.busy = true ↔ s.phase ≠ .idle) ∧
  (∀ s t : State, step s = .next t → s.now.rst = false →
    (s.busy = false → t.busy = true → t.done = false) ∧
    (s.busy = true → t.busy = false → t.done = true) ∧
    (s.busy = t.busy → t.done = s.done) ∧
    (s.busy = false → t.busy = false → t.res = s.res ∧
      (∀ a, Memory.read t.frame a = Memory.read s.frame a) ∧ t.fvalid = s.fvalid ∧
      t.errKind = s.errKind ∧ t.errValue = s.errValue))

/-- The layout of STATUS (R20), its reserved bits (R25), and the codes of its ERR_KIND field (the code column of R114). -/
def Obligations.StatusWordLayout : Prop :=
  (∀ s : State,
    (s.now.rst = false → s.outputs.status = s.status) ∧
    s.status.getLsbD 0 = s.busy ∧ s.status.getLsbD 1 = s.done ∧ s.status.getLsbD 2 = s.fvalid ∧
    s.status.getLsbD 3 = false ∧ s.status.extractLsb' 4 3 = s.errKind.code ∧
    s.status.getLsbD 7 = false ∧ s.status.extractLsb' 8 8 = s.errValue) ∧
  (ErrKind.none.code = 0 ∧ ErrKind.invalidMode.code = 1 ∧ ErrKind.invalidPower.code = 2 ∧
    ErrKind.invalidFan.code = 3 ∧ ErrKind.invalidSwing.code = 4 ∧
    ErrKind.invalidTemperature.code = 5 ∧ ErrKind.illegalCommand.code = 6) ∧
  State.reset.status = 0x0000#16

/-- The combinational read port (R33). -/
def Obligations.FrameReadPort : Prop :=
  ∀ s : State,
    (s.now.rst = false → s.now.frameAddr.toNat ≤ 16 →
      s.outputs.frameData = Memory.read s.frame s.now.frameAddr.toNat) ∧
    (s.now.rst = false → 17 ≤ s.now.frameAddr.toNat → s.outputs.frameData = 0x00#8) ∧
    (∀ u : State, s.now.rst = false → u.now.rst = false → u.frame = s.frame → u.now.frameAddr = s.now.frameAddr →
      u.outputs.frameData = s.outputs.frameData) ∧
    (∀ a : BitVec 5, step { s with now := { s.now with frameAddr := a } } = step s)

/-- `nop` (R65): the completion of R62 and no other effect. -/
def Obligations.NopCompletesWithNoEffect : Prop :=
  encode .nop = 0x0000#16 ∧
  ∀ s : State, s.phase = .exec →
    exec .nop s = .next { s with phase := .idle, done := true, offer := false }

/-- `enc.mode` (R66, R81). -/
def Obligations.EncModeGivesTheModePattern : Prop :=
  encode .encMode = 0x1000#16 ∧
  ∀ s : State, s.phase = .exec →
    (s.set.mode = 0b00#2 → exec .encMode s =
      .next { s with res := 0x000003#24, phase := .idle, done := true, offer := false }) ∧
    (s.set.mode = 0b01#2 → exec .encMode s =
      .next { s with res := 0x000004#24, phase := .idle, done := true, offer := false }) ∧
    (s.set.mode = 0b10#2 → exec .encMode s = .next { s with
        errKind := .invalidMode, errValue := 0x02#8, phase := .idle, done := true, offer := false }) ∧
    (s.set.mode = 0b11#2 → exec .encMode s = .next { s with
        errKind := .invalidMode, errValue := 0x03#8, phase := .idle, done := true, offer := false })

/-- `enc.tmr` (R67, R82), at every delay width. -/
def Obligations.EncTmrGivesTheTimerMode : Prop :=
  encode .encTmr = 0x2000#16 ∧
  (∀ s : State, s.phase = .exec →
    (s.delay = 0 → exec .encTmr s =
      .next { s with res := 0x000000#24, phase := .idle, done := true, offer := false }) ∧
    (0 < s.delay → exec .encTmr s =
      .next { s with res := 0x000001#24, phase := .idle, done := true, offer := false }) ∧
    (s.delay < 0 → exec .encTmr s =
      .next { s with res := 0x000002#24, phase := .idle, done := true, offer := false })) ∧
  (∀ s t : State, exec .encTmr s = .next t → t.res ≠ 0x000003#24) ∧
  (∀ s : State, s.phase = .exec → 2 ≤ s.pDelayW → s.set.delay = 2 ^ (s.pDelayW - 1) →
    s.delay = -(2 ^ (s.pDelayW - 1) : Int) ∧ exec .encTmr s =
      .next { s with res := 0x000002#24, phase := .idle, done := true, offer := false })

/-- `enc.pwr` (R68, R83). -/
def Obligations.EncPwrGivesThePowerBit : Prop :=
  encode .encPwr = 0x3000#16 ∧
  ∀ s : State, s.phase = .exec →
    (s.set.power = 0b00#2 → exec .encPwr s =
      .next { s with res := 0x000000#24, phase := .idle, done := true, offer := false }) ∧
    (s.set.power = 0b01#2 → exec .encPwr s =
      .next { s with res := 0x000001#24, phase := .idle, done := true, offer := false }) ∧
    (s.set.power = 0b10#2 → exec .encPwr s = .next { s with
        errKind := .invalidPower, errValue := 0x02#8, phase := .idle, done := true, offer := false }) ∧
    (s.set.power = 0b11#2 → exec .encPwr s = .next { s with
        errKind := .invalidPower, errValue := 0x03#8, phase := .idle, done := true, offer := false })

/-- `enc.fan` (R69, R84). The pattern is stated as a number: no wrap occurs. -/
def Obligations.EncFanGivesTheFanPattern : Prop :=
  encode .encFan = 0x4000#16 ∧
  ∀ s : State, s.phase = .exec →
    (s.set.fan.toInt = 0 → exec .encFan s =
      .next { s with res := 0x00000B#24, phase := .idle, done := true, offer := false }) ∧
    (1 ≤ s.set.fan.toInt → s.set.fan.toInt ≤ 5 → ∃ r : ResWord,
      (r.toNat : Int) = s.set.fan.toInt + 2 ∧ exec .encFan s =
        .next { s with res := r, phase := .idle, done := true, offer := false }) ∧
    (s.set.fan.toInt < 0 ∨ 5 < s.set.fan.toInt → exec .encFan s =
      .next { s with
        errKind := .invalidFan, errValue := s.set.fan, phase := .idle, done := true, offer := false })

/-- `enc.swg` (R70, R85). -/
def Obligations.EncSwgGivesTheSwingPattern : Prop :=
  encode .encSwg = 0x5000#16 ∧
  ∀ s : State, s.phase = .exec →
    (s.set.swing = 0b00#2 → exec .encSwg s =
      .next { s with res := 0x000000#24, phase := .idle, done := true, offer := false }) ∧
    (s.set.swing = 0b01#2 → exec .encSwg s =
      .next { s with res := 0x00000F#24, phase := .idle, done := true, offer := false }) ∧
    (s.set.swing = 0b10#2 → exec .encSwg s = .next { s with
        errKind := .invalidSwing, errValue := 0x02#8, phase := .idle, done := true, offer := false }) ∧
    (s.set.swing = 0b11#2 → exec .encSwg s = .next { s with
        errKind := .invalidSwing, errValue := 0x03#8, phase := .idle, done := true, offer := false })

/-- `enc.temp` (R71, R86). The byte is stated as a number: no wrap occurs. -/
def Obligations.EncTempGivesTwiceTheTemperature : Prop :=
  encode .encTemp = 0x6000#16 ∧
  ∀ s : State, s.phase = .exec →
    (18 ≤ s.set.temp.toInt → s.set.temp.toInt ≤ 30 → ∃ r : ResWord,
      (r.toNat : Int) = s.set.temp.toInt * 2 ∧ exec .encTemp s =
        .next { s with res := r, phase := .idle, done := true, offer := false }) ∧
    (s.set.temp.toInt < 18 ∨ 30 < s.set.temp.toInt → exec .encTemp s =
      .next { s with
        errKind := .invalidTemperature, errValue := s.set.temp, phase := .idle, done := true, offer := false })

/-- The delay encoder (R74 to R77), total (R79), on the exact minute count of R73. -/
def Obligations.DelayBytesByBranch : Prop :=
  ∀ d : Int,
    (d = 0 → delayBytes d = ⟨0x00, 0x06, 0x60⟩) ∧
    (0 < d →
      (delayBytes d).byte1.toNat = d.natAbs * 60 % 256 ∧
      (delayBytes d).byte2.toNat = d.natAbs * 60 / 256 % 256 ∧ (delayBytes d).byte3 = 0x60) ∧
    (d < 0 → 255 < d.natAbs * 60 →
      (delayBytes d).byte1 = 0x00 ∧ (delayBytes d).byte2.toNat = d.natAbs * 60 % 256 ∧
      (delayBytes d).byte3.toNat = d.natAbs * 60 / 256 % 256) ∧
    (d < 0 → d.natAbs * 60 ≤ 255 →
      (delayBytes d).byte1 = 0x00 ∧
      (delayBytes d).byte2.toNat = d.natAbs * 60 % 16 * 16 + 6 ∧
      (delayBytes d).byte3.toNat = d.natAbs * 60 / 16 ∧ (delayBytes d).byte3.toNat ≤ 15) ∧
    delayBytes (-1093) = ⟨0x00, 0x2C, 0x00⟩ ∧ delayBytes 1093 = ⟨0x2C, 0x00, 0x60⟩

/-- Where the two off-timer forms meet (R78). -/
def Obligations.SmallOffTimerIsOneToFourHours : Prop :=
  (∀ d : Int, (d < 0 ∧ minutes d ≤ 255) ↔ d = -1 ∨ d = -2 ∨ d = -3 ∨ d = -4) ∧
  minutes (-1) = 60 ∧ minutes (-2) = 120 ∧ minutes (-3) = 180 ∧ minutes (-4) = 240 ∧
  (∀ d : Int, -4 ≤ d → d ≤ -1 → delayBytes d = delayOffSmall (minutes d)) ∧
  (∀ d : Int, d ≤ -5 → 300 ≤ minutes d ∧ delayBytes d = delayOffLarge (minutes d))

/-- `enc.dly` (R87) and its packing (R88). -/
def Obligations.EncDlyGivesTheDelayBytes : Prop :=
  encode .encDly = 0x7000#16 ∧
  (∀ s : State, s.phase = .exec → ∃ r : ResWord,
    r.extractLsb' 0 8 = (delayBytes s.delay).byte1 ∧
    r.extractLsb' 8 8 = (delayBytes s.delay).byte2 ∧
    r.extractLsb' 16 8 = (delayBytes s.delay).byte3 ∧
    exec .encDly s =
      .next { s with res := r, phase := .idle, done := true, offer := false } ∧
    (s.delay = 2 → r = 0x600078#24) ∧ (s.delay = -4 → r = 0x0F0600#24) ∧
    (s.delay = -5 → r = 0x012C00#24) ∧ (s.delay = -1093 → r = 0x002C00#24) ∧
    (s.delay = 1093 → r = 0x60002C#24))

/-- The frame of the `enc.*` commands: only RES or the error fields, and the lifecycle's PHASE, DONE and OFFER, may change (R15, R18, R118). -/
def Obligations.EncCommandsFrame : Prop :=
  ∀ i ∈ encCommands, ∀ s t : State, exec i s = .next t →
    t.set = s.set ∧ t.cur = s.cur ∧ t.fvalid = s.fvalid ∧ t.seqIdx = s.seqIdx ∧
    (∀ a, Memory.read t.frame a = Memory.read s.frame a) ∧
    t.pDelayW = s.pDelayW ∧ t.now = s.now ∧ t.later = s.later ∧ t.rest = s.rest ∧
    t.oldFrame = s.oldFrame ∧ t.oldFvalid = s.oldFvalid ∧ t.seesNew = s.seesNew ∧
    t.sink = s.sink ∧
    ((t.errKind = s.errKind ∧ t.errValue = s.errValue) ∨ t.res = s.res) ∧
    (i = .encTmr ∨ i = .encDly → t.errKind = s.errKind ∧ t.errValue = s.errValue)

/-- The additive checksum and its circuit (R92). -/
def Obligations.ChecksumIsTheCarryDiscardingSum : Prop :=
  ∀ x : List Byte,
    (checksum x).toNat = (x.map BitVec.toNat).sum % 256 ∧
    x.foldl (fun acc b => acc + b) 0 = checksum x

/-- The layout of R89, with the concatenations written as bit vectors. -/
def Obligations.BuiltFrameLayout : Prop :=
  ∀ (S : Settings) (d : Int) (F : List Byte), buildCommand S d = .ok F →
    ∃ (mode : BitVec 4) (pwr : BitVec 1) (temp : Byte) (fan swg : BitVec 4),
      encodeMode S.mode = .ok mode ∧ encodePower S.power = .ok pwr ∧
      encodeTemperature S.temp = .ok temp ∧ encodeFan S.fan = .ok fan ∧
      encodeSwing S.swing = .ok swg ∧
      F.take 16 = [0x11, 0xDA, 0x27, 0x00, 0x00, mode ++ 1#1 ++ encodeTimerMode d ++ pwr, temp,
        0x00, fan ++ swg, 0x00, (delayBytes d).byte1, (delayBytes d).byte2,
        (delayBytes d).byte3, 0x00, 0x00, 0xC1] ∧
      F = F.take 16 ++ [checksum (F.take 16)]

/-- The packed bytes of a frame (R90 with conflict C1, R91). -/
def Obligations.PackedByteValues : Prop :=
  (∀ (mode : BitVec 4) (tmr : BitVec 2) (pwr : BitVec 1),
    byte5 mode tmr pwr =
      (mode.setWidth 8 <<< 4) ||| 0x08#8 ||| (tmr.setWidth 8 <<< 1) ||| pwr.setWidth 8) ∧
  (∀ fan swg : BitVec 4, byte8 fan swg = (fan.setWidth 8 <<< 4) ||| swg.setWidth 8) ∧
  (∀ (S : Settings) (d : Int) (F : List Byte), buildCommand S d = .ok F →
    (S.mode = 0b00#2 → 0x38 ≤ (F.getD 5 0).toNat ∧ (F.getD 5 0).toNat ≤ 0x3D) ∧
    (S.mode = 0b01#2 → 0x48 ≤ (F.getD 5 0).toNat ∧ (F.getD 5 0).toNat ≤ 0x4D) ∧
    ((3 ≤ (F.getD 8 0).toNat / 16 ∧ (F.getD 8 0).toNat / 16 ≤ 7) ∨
      (F.getD 8 0).toNat / 16 = 0xB) ∧
    ((F.getD 8 0).toNat % 16 = 0 ∨ (F.getD 8 0).toNat % 16 = 0xF)) ∧
  byte5 0b0011#4 0b00#2 1#1 = 0x39#8 ∧ byte5 0b0011#4 0b00#2 1#1 ≠ 0x31#8 ∧
  byte8 0b1011#4 0b1111#4 = 0xBF#8

/-- The closed form of the frame checksum (R93). -/
def Obligations.FrameChecksumClosedForm : Prop :=
  ∀ (S : Settings) (d : Int) (F : List Byte), buildCommand S d = .ok F →
    (F.getD 16 0).toNat =
      (0xD3 + (F.getD 5 0).toNat + (F.getD 6 0).toNat + (F.getD 8 0).toNat +
        (F.getD 10 0).toNat + (F.getD 11 0).toNat + (F.getD 12 0).toNat) % 256 ∧
    (F.getD 16 0).toNat = ((F.take 16).map BitVec.toNat).sum % 256

/-- When a frame is built (R95). -/
def Obligations.BuildSucceedsExactlyOnValidSettings : Prop :=
  ∀ (S : Settings) (d : Int),
    (∃ F, buildCommand S d = .ok F) ↔
      (S.mode = 0b00#2 ∨ S.mode = 0b01#2) ∧ (S.power = 0b00#2 ∨ S.power = 0b01#2) ∧
      (18 ≤ S.temp.toInt ∧ S.temp.toInt ≤ 30) ∧ (0 ≤ S.fan.toInt ∧ S.fan.toInt ≤ 5) ∧
      (S.swing = 0b00#2 ∨ S.swing = 0b01#2)

/-- The order of R122; the error is the field encoder's, unmodified (R119). -/
def Obligations.FirstErrorInTheFixedOrder : Prop :=
  (∀ i : Instr, i = .build ∨ i = .render → ∀ (s : State) (e : Err), s.phase = .exec →
    (encodeMode s.set.mode = .error e ∨
      ((∃ m, encodeMode s.set.mode = .ok m) ∧
        (encodePower s.set.power = .error e ∨
          ((∃ p, encodePower s.set.power = .ok p) ∧
            (encodeTemperature s.set.temp = .error e ∨
              ((∃ c, encodeTemperature s.set.temp = .ok c) ∧
                (encodeFan s.set.fan = .error e ∨
                  ((∃ f, encodeFan s.set.fan = .ok f) ∧
                    encodeSwing s.set.swing = .error e)))))))) →
    exec i s = .next { s with
      fvalid := false, errKind := e.kind, errValue := e.value
      phase := .idle, done := true, offer := false }) ∧
  (∀ s t : State, s.phase = .exec → s.errKind = .none →
    (exec .encMode s = .next t → t.errKind = .none ∨ t.errKind = .invalidMode) ∧
    (exec .encPwr s = .next t → t.errKind = .none ∨ t.errKind = .invalidPower) ∧
    (exec .encTemp s = .next t → t.errKind = .none ∨ t.errKind = .invalidTemperature) ∧
    (exec .encFan s = .next t → t.errKind = .none ∨ t.errKind = .invalidFan) ∧
    (exec .encSwg s = .next t → t.errKind = .none ∨ t.errKind = .invalidSwing)) ∧
  (∀ (s : State) (why : Illegal), s.phase = .exec → s.now.rst = false →
    s.now.execWait = false → decode s.cur = .illegal why →
    ∃ t, step s = .next t ∧ t.errKind = .illegalCommand)

/-- `build` (R96). The stored bytes are indices 0 to 16 of FRAME. -/
def Obligations.BuildStoresTheFrameOrReportsTheError : Prop :=
  encode .build = 0x8000#16 ∧
  (∀ (s : State) (F : List Byte), s.phase = .exec → buildCommand s.set s.delay = .ok F →
    ∃ t, exec .build s = .next t ∧
      t = { s with frame := t.frame, fvalid := true, phase := .idle, done := true, offer := false } ∧
      (∀ a, a ≤ 16 → F[a]? = some (Memory.read t.frame a)) ∧
      (∀ a, 17 ≤ a → Memory.read t.frame a = Memory.read s.frame a) ∧
      (∀ u, exec .build { t with phase := .exec } = .next u →
        ∀ a, Memory.read u.frame a = Memory.read t.frame a)) ∧
  (∀ (s : State) (e : Err), s.phase = .exec → buildCommand s.set s.delay = .error e →
    exec .build s = .next { s with
      fvalid := false, errKind := e.kind, errValue := e.value
      phase := .idle, done := true, offer := false }) ∧
  buildCommand ⟨0b01, 0, 0b01, 25, 0b00, 0⟩ 0 =
    .ok [0x11, 0xDA, 0x27, 0x00, 0x00, 0x39, 0x32, 0x00, 0xBF, 0x00, 0x00, 0x06, 0x60, 0x00, 0x00,
      0xC1, 0x63]

/-- The frame of `build` and `render`: the bytes stored are those of `storeFrame`, 17 bytes from index 0 (R15, R19, R96, R110). -/
def Obligations.BuildAndRenderFrame : Prop :=
  ∀ i : Instr, i = .build ∨ i = .render → ∀ s t : State, exec i s = .next t →
    t.set = s.set ∧ t.cur = s.cur ∧ t.res = s.res ∧ t.pDelayW = s.pDelayW ∧
    t.now = s.now ∧ t.later = s.later ∧ t.rest = s.rest ∧
    t.oldFrame = s.oldFrame ∧ t.oldFvalid = s.oldFvalid ∧ t.seesNew = s.seesNew ∧
    (∀ a, 17 ≤ a → Memory.read t.frame a = Memory.read s.frame a) ∧
    (i = .build → t.sink = s.sink ∧ t.seqIdx = s.seqIdx) ∧
    (s.phase = .emit →
      (∀ a, Memory.read t.frame a = Memory.read s.frame a) ∧ t.fvalid = s.fvalid ∧
      t.errKind = s.errKind ∧ t.errValue = s.errValue) ∧
    (s.phase = .exec → t.sink = s.sink ∧
      ((t.errKind = s.errKind ∧ t.errValue = s.errValue) ∨
        ∀ a, Memory.read t.frame a = Memory.read s.frame a))

/-- SYMROM (R97). -/
def Obligations.SymbolRomValues : Prop :=
  (PulseSym.zero.code = 0 ∧ symRom .zero = 0x00120012#32 ∧
    quadFields (symRom .zero) = [0x00, 0x12, 0x00, 0x12]) ∧
  (PulseSym.one.code = 1 ∧ symRom .one = 0x00120031#32 ∧
    quadFields (symRom .one) = [0x00, 0x12, 0x00, 0x31]) ∧
  (PulseSym.leader.code = 2 ∧ symRom .leader = 0x00860041#32 ∧
    quadFields (symRom .leader) = [0x00, 0x86, 0x00, 0x41]) ∧
  (PulseSym.stop1.code = 3 ∧ symRom .stop1 = 0x001203C1#32 ∧
    quadFields (symRom .stop1) = [0x00, 0x12, 0x03, 0xC1]) ∧
  (PulseSym.stop2.code = 4 ∧ symRom .stop2 = 0x00130522#32 ∧
    quadFields (symRom .stop2) = [0x00, 0x13, 0x05, 0x22]) ∧
  (PulseSym.stop3.code = 5 ∧ symRom .stop3 = 0x00121E0D#32 ∧
    quadFields (symRom .stop3) = [0x00, 0x12, 0x1E, 0x0D]) ∧
  (∀ q : Quad, quadFields q =
    [q.extractLsb' 24 8, q.extractLsb' 16 8, q.extractLsb' 8 8, q.extractLsb' 0 8])

/-- The symbol counts of a render (R102). -/
def Obligations.RenderHas276Symbols : Prop :=
  ∀ F : List Byte, F.length = 17 →
    (renderSeq F).length = 276 ∧ (renderSeq F).count .leader = 3 ∧
    (renderSeq F).count .stop1 = 1 ∧ (renderSeq F).count .stop2 = 2 ∧
    (renderSeq F).count .stop3 = 1 ∧
    (renderSeq F).count .zero + (renderSeq F).count .one = 269 ∧
    (renderSeq F).count .one =
      ((ff1 ++ ff2 ++ F).flatMap fun b => (List.range 8).map fun k => b.getLsbD k).count true

/-- The sequencer's table (R103) gives the concatenation of R101; the fixed frames it reads hold the bytes of R31. -/
def Obligations.RenderSymbolFromItsIndex : Prop :=
  ff1 = [0x11, 0xDA, 0x27, 0x00, 0xC5, 0x00, 0x00, 0xD7] ∧
  ff2 = [0x11, 0xDA, 0x27, 0x00, 0x42, 0x00, 0x00, 0x54] ∧
  (ff1.getD 7 0 = checksum (ff1.take 7) ∧ ff2.getD 7 0 = checksum (ff2.take 7)) ∧
  ∀ F : List Byte, F.length = 17 →
    (∀ i, i < 276 → (renderSeq F)[i]? = some (renderSymAt F i)) ∧
    (∀ j k, j < 17 → k < 8 →
      (renderSeq F)[139 + 8 * j + k]? = some (bitSym ((F.getD j 0).getLsbD k)))

/-- `emitb` (R105, R106, R108), edge by edge. When an offer is raised is the model's: the wait bit of log 3, the earliest edge of log 10. -/
def Obligations.EmitbEmitsTheBitsOfItsByte : Prop :=
  ∀ b : Byte,
    encode (.emitb b) = BitVec.ofNat 16 (0x9000 + b.toNat) ∧
    ∀ s : State,
      (s.phase = .exec → exec (.emitb b) s =
        .next { s with phase := .emit, seqIdx := 0#9, offer := !s.now.offerWait }) ∧
      (s.phase = .emit → s.seqIdx.toNat < 8 →
        EmitsAtThisEdge (.emitb b) s (if b.getLsbD s.seqIdx.toNat then .one else .zero) 8)

/-- `emits` (R105, R106, R109), edge by edge. When an offer is raised is the model's: the wait bit of log 3, the earliest edge of log 10. -/
def Obligations.EmitsEmitsItsSymbol : Prop :=
  (∀ y : PulseSym,
    encode (.emits y.code) = BitVec.ofNat 16 (0xA000 + y.code.toNat) ∧
    ∀ s : State,
      (s.phase = .exec → exec (.emits y.code) s =
        .next { s with phase := .emit, seqIdx := 0#9, offer := !s.now.offerWait }) ∧
      (s.phase = .emit → s.seqIdx = 0#9 → s.offer = false →
        exec (.emits y.code) s = .next { s with offer := !s.now.offerWait }) ∧
      (s.phase = .emit → s.seqIdx = 0#9 → s.offer = true → s.now.symReady = false →
        exec (.emits y.code) s = .next s) ∧
      (s.phase = .emit → s.seqIdx = 0#9 → s.offer = true → s.now.symReady = true →
        exec (.emits y.code) s = .next { s with
          sink := s.sink ++ [⟨y.code, symRom y, true⟩], phase := .idle, done := true, offer := false })) ∧
  (∀ (n : Nat) (s : State), 6 ≤ n → n ≤ 255 → s.phase = .exec → s.now.rst = false →
    s.now.execWait = false → s.cur = BitVec.ofNat 16 (0xA000 + n) →
    ∃ t, step s = .next t ∧ t.sink = s.sink ∧ t.errKind = .illegalCommand ∧
      t.errValue = BitVec.ofNat 8 n ∧ t.phase = .idle ∧ t.done = true)

/-- The frame of `nop`, `emitb` and `emits`: only the lifecycle, the sequencer and the sink may change (R15, R65, R108, R109). -/
def Obligations.StreamCommandsFrame : Prop :=
  ∀ i : Instr, (i = .nop ∨ (∃ b, i = .emitb b) ∨ ∃ c, i = .emits c ∧ i.wf = true) →
    ∀ s t : State, exec i s = .next t →
      t.set = s.set ∧ t.cur = s.cur ∧ t.res = s.res ∧ t.fvalid = s.fvalid ∧
      t.errKind = s.errKind ∧ t.errValue = s.errValue ∧
      (∀ a, Memory.read t.frame a = Memory.read s.frame a) ∧
      t.pDelayW = s.pDelayW ∧ t.now = s.now ∧ t.later = s.later ∧ t.rest = s.rest ∧
      t.oldFrame = s.oldFrame ∧ t.oldFvalid = s.oldFvalid ∧ t.seesNew = s.seesNew ∧
      (i = .nop → t.sink = s.sink ∧ t.seqIdx = s.seqIdx) ∧ s.sink <+: t.sink

/-- `render` (R105, R106, R110), edge by edge, and its failure (R111). When an offer is raised is the model's: the wait bit of log 3, the earliest edge of log 10. -/
def Obligations.RenderBuildsThenEmitsItsSequence : Prop :=
  encode .render = 0xB000#16 ∧
  (∀ (s : State) (F : List Byte), s.phase = .exec → buildCommand s.set s.delay = .ok F →
    ∃ t, exec .render s = .next t ∧
      t = { s with
        frame := t.frame, fvalid := true, phase := .emit, seqIdx := 0#9, offer := !s.now.offerWait } ∧
      (∀ a, a ≤ 16 → F[a]? = some (Memory.read t.frame a)) ∧
      (∀ a, 17 ≤ a → Memory.read t.frame a = Memory.read s.frame a) ∧
      (∀ u, exec .build s = .next u → u.frame = t.frame)) ∧
  (∀ s : State, s.phase = .emit → s.seqIdx.toNat < 276 →
    EmitsAtThisEdge .render s (renderSymAt (frameBytes s.frame) s.seqIdx.toNat) 276) ∧
  (∀ (s : State) (e : Err), s.phase = .exec → buildCommand s.set s.delay = .error e →
    exec .render s = .next { s with
      fvalid := false, errKind := e.kind, errValue := e.value
      phase := .idle, done := true, offer := false }) ∧
  (∀ (F G : List Byte) (k : Nat), k ≤ 138 → renderSymAt F k = renderSymAt G k) ∧
  (∃ F, buildCommand ⟨0b01, 0, 0b01, 25, 0b00, 0⟩ 0 = .ok F ∧ (renderSeq F).count .one = 73 ∧
    F.drop 15 = [0xC1, 0x63] ∧ renderSymAt F 275 = .stop3)

/-- The valid/ready stream holds an offer (R106). -/
def Obligations.OfferedSymbolIsStableUntilItsHandshake : Prop :=
  ∀ s : State, s.Inv → s.offer = true → s.now.rst = false → s.now.symReady = false →
    ∃ t, step s = .next t ∧ t.offer = true ∧ t.sink = s.sink ∧
      t.outputs.symCode = s.outputs.symCode ∧ t.outputs.symQuad = s.outputs.symQuad ∧
      t.outputs.symLast = s.outputs.symLast ∧
      (t.now.rst = false → t.outputs.symValid = true)

/-- One symbol per handshake, none otherwise (R106); SEQ_IDX advances by exactly 1 (R27). -/
def Obligations.SymbolsPassOnlyAtHandshakes : Prop :=
  ∀ s t : State, s.Inv → step s = .next t →
    (s.outputs.symValid = true → s.now.symReady = true →
      t.sink = s.sink ++ [⟨s.outputs.symCode, s.outputs.symQuad, s.outputs.symLast⟩] ∧
      ((s.outputs.symLast = true ∧ t.phase = .idle) ∨
        (s.outputs.symLast = false ∧ t.phase = .emit ∧ t.seqIdx.toNat = s.seqIdx.toNat + 1))) ∧
    (¬(s.outputs.symValid = true ∧ s.now.symReady = true) →
      t.sink = s.sink ∧ (t.seqIdx = s.seqIdx ∨ t.seqIdx = 0#9))

/-- The end-of-command marker (R107), and the symbol outputs without an offer (R26). -/
def Obligations.SymLastMarksTheLastSymbolOnly : Prop :=
  (∀ s : State, s.offer = false →
    s.outputs.symValid = false ∧ s.outputs.symCode = 0 ∧ s.outputs.symQuad = 0 ∧
    s.outputs.symLast = false) ∧
  ∀ s : State, s.Inv → s.offer = true →
    (∀ b, decode s.cur = .legal (.emitb b) → (s.outputs.symLast = true ↔ s.seqIdx.toNat = 7)) ∧
    (∀ c, decode s.cur = .legal (.emits c) → (s.outputs.symLast = true ↔ s.seqIdx.toNat = 0)) ∧
    (decode s.cur = .legal .render → (s.outputs.symLast = true ↔ s.seqIdx.toNat = 275) ∧
      (s.seqIdx.toNat = 275 → s.outputs.symCode = PulseSym.stop3.code))

/-- No timeout or error ends the wait for the sink, and the hang is there (R137, U18). The endless cycles are those of log 2. -/
def Obligations.SinkThatNeverAcceptsHoldsTheBlock : Prop :=
  (∀ (n : Nat) (s : State), s.Inv → s.phase = .emit →
    (∀ k, k < n → (s.cycleAt k).rst = false ∧ (s.cycleAt k).symReady = false) →
    ∃ t, run n s = some t ∧ t.phase = .emit ∧ t.busy = true ∧ t.seqIdx = s.seqIdx ∧
      t.sink = s.sink) ∧
  (∃ s : State, s.Inv ∧ s.phase = .emit ∧
    (∀ k, (s.cycleAt k).rst = false ∧ (s.cycleAt k).symReady = false) ∧
    ∀ n, ∃ t, run n s = some t ∧ t.phase = .emit ∧ t.done = false ∧ t.sink = s.sink) ∧
  (∀ s : State, s.Inv → s.offer = true → s.later = [] → s.now = s.rest.settled →
    s.now.rst = false → s.now.symReady = false →
    step s = .next { s with seesNew := s.seesNew || s.now.readsNew })

/-- The host-side text form (R112) and the text of one render (R113). -/
def Obligations.TextOfSymbolsAndOfARender : Prop :=
  (∀ last : Bool,
    symText ⟨0, 0x00120012, last⟩ = "0x00,0x12,0x00,0x12,".toList ∧
    symText ⟨1, 0x00120031, last⟩ = "0x00,0x12,0x00,0x31,".toList ∧
    symText ⟨2, 0x00860041, last⟩ = "0x00,0x86,0x00,0x41,".toList ∧
    symText ⟨3, 0x001203C1, last⟩ = "0x00,0x12,0x03,0xc1,".toList ∧
    symText ⟨4, 0x00130522, last⟩ = "0x00,0x13,0x05,0x22,".toList ∧
    symText ⟨5, 0x00121E0D, last⟩ = "0x00,0x12,0x1e,0x0d".toList) ∧
  streamText [] = [] ∧
  (∀ (y : SymOut) (ys : List SymOut), streamText (y :: ys) = symText y ++ streamText ys) ∧
  (∀ F : List Byte, F.length = 17 →
    (streamText (stamp (renderSeq F))).length = 5519 ∧
    "0x00,0x12,0x00,0x12,".toList <+: streamText (stamp (renderSeq F)) ∧
    "0x1e,0x0d".toList <:+ streamText (stamp (renderSeq F)))

/-- The equivalence that R58 names: same symbol values, other `sym_last` flags. -/
def Obligations.HandBuiltRenderGivesTheSameSymbols : Prop :=
  ∀ (F : List Byte) (S : Settings) (d : Int) (v : Visible),
    ((handRender F).flatMap fun i => (transact (encode i) S d v).syms).map SymOut.symbolValue =
      (stamp (renderSeq F)).map SymOut.symbolValue ∧
    ∀ i ∈ handRender F, (transact (encode i) S d v).after = v ∧ (transact (encode i) S d v).err = none

/-- Each mnemonic with its operand assembles to its one command (R56, R58; log 17). -/
def Obligations.AssemblerReadsBackEverySourceLine : Prop :=
  ∀ (W : Nat) (i : Instr), i.wf = true → assembleLine W (sourceLine i) = some (.command i)

/-- `IllegalCommand` (R116). -/
def Obligations.IllegalWordRaisesIllegalCommand : Prop :=
  ∀ (s : State) (why : Illegal), s.phase = .exec → s.now.rst = false → s.now.execWait = false →
    decode s.cur = .illegal why →
    ∃ t, step s = .next t ∧ t.errKind = .illegalCommand ∧
      (why = .reservedOpcode ∨ why = .reservedBits → t.errValue = s.cur.extractLsb' 8 8) ∧
      (why = .badOperand → t.errValue = s.cur.extractLsb' 0 8) ∧
      t.phase = .idle ∧ t.done = true ∧ t.offer = false ∧
      t.set = s.set ∧ t.cur = s.cur ∧ t.res = s.res ∧
      (∀ a, Memory.read t.frame a = Memory.read s.frame a) ∧ t.fvalid = s.fvalid ∧
      t.sink = s.sink ∧ t.seqIdx = s.seqIdx

/-- Nothing but acceptance writes SET or CUR (R16, R17). Taking the delay pattern to the port's width is the model's choice (log 18). -/
def Obligations.OnlyAcceptanceWritesSetAndCur : Prop :=
  (∀ s t : State, step s = .next t → s.now.rst = false →
    (s.phase = .idle ∧ s.now.cmdValid = true ∧ t.cur = s.now.cmdWord ∧
      t.set.power = s.now.settings.power ∧ t.set.fan = s.now.settings.fan ∧
      t.set.swing = s.now.settings.swing ∧ t.set.temp = s.now.settings.temp ∧
      t.set.mode = s.now.settings.mode ∧ t.set.delay = s.now.settings.delay % 2 ^ s.pDelayW) ∨
    (¬(s.phase = .idle ∧ s.now.cmdValid = true) ∧ t.set = s.set ∧ t.cur = s.cur)) ∧
  State.reset.cur = 0x0000#16

/-- Who writes RES (R18). -/
def Obligations.OnlySuccessfulEncCommandsWriteRes : Prop :=
  (∀ s : State, s.now.rst = false → s.outputs.res = s.res) ∧
  ∀ s t : State, s.Inv → step s = .next t → s.now.rst = false → t.res ≠ s.res →
    s.phase = .exec ∧ (∃ i ∈ encCommands, decode s.cur = .legal i) ∧
    t.phase = .idle ∧ t.errKind = .none

/-- Who writes FRAME and FVALID, and how (R19, R23). -/
def Obligations.OnlyBuildAndRenderWriteTheFrame : Prop :=
  ∀ s t : State, step s = .next t → s.now.rst = false →
    (s.phase = .exec ∧ s.now.execWait = false ∧
        (decode s.cur = .legal .build ∨ decode s.cur = .legal .render) ∧
        ((∃ F, buildCommand s.set s.delay = .ok F ∧ frameBytes t.frame = F ∧ t.fvalid = true) ∨
          (∃ e, buildCommand s.set s.delay = .error e ∧ t.frame = s.frame ∧ t.fvalid = false))) ∨
      (¬(s.phase = .exec ∧ s.now.execWait = false ∧
          (decode s.cur = .legal .build ∨ decode s.cur = .legal .render)) ∧
        t.frame = s.frame ∧ t.fvalid = s.fvalid)

/-- The error fields report only the last command's outcome (R24). -/
def Obligations.ErrorFieldsFollowTheLastCommand : Prop :=
  ∀ s t : State, s.Inv → step s = .next t → s.now.rst = false →
    (s.busy = false → t.busy = true → t.errKind = .none ∧ t.errValue = 0) ∧
    (s.busy = t.busy → t.errKind = s.errKind ∧ t.errValue = s.errValue) ∧
    (s.busy = true → s.errKind = .none ∧ s.errValue = 0) ∧
    (s.busy = true → t.busy = false →
      t.reportedErr = (transact s.cur s.set s.delay s.visible).err ∧
      (t.errKind = .none → t.errValue = 0))

/-- The invariant holds at reset (R29). -/
def Obligations.ResetStateMeetsTheInvariant : Prop :=
  State.reset.Inv

/-- The invariant is inductive: it is kept from every state that meets it, reached or not. -/
def Obligations.EveryStepKeepsTheInvariant : Prop :=
  ∀ s t : State, s.Inv → step s = .next t → t.Inv

/-- No word, no Settings value and no port sequence stops the block (R120): each edge has its next state. -/
def Obligations.InvariantStatesNeverStop : Prop :=
  ∀ s : State, s.Inv → NeverStops s

/-- The transaction view (R64): latencies and back-pressure do not matter. -/
def Obligations.EveryRunOfACommandIsItsTransaction : Prop :=
  ∀ (s s1 t : State) (n : Nat), s.phase = .idle → s.now.rst = false → s.now.cmdValid = true →
    step s = .next s1 → runCommand n s1 = some t → t.phase = .idle →
    let y := transact s.now.cmdWord s.now.settings (sintOfWidth s.pDelayW s.now.settings.delay) s.visible
    t.visible = y.after ∧ t.sink = s.sink ++ y.syms ∧ t.reportedErr = y.err ∧ t.done = true

/-- Only reset, a running latency or the sink can keep a command from completing (R137, R139). The latencies are the wait bits of log 3, and the cycles without end are those of log 2. -/
def Obligations.UnhinderedCommandCompletes : Prop :=
  ∀ s : State, s.Inv → s.busy = true →
    (∀ k, (s.cycleAt k).unhindered = true) →
    ∃ n t, n ≤ unhinderedBound ∧ runCommand n s = some t ∧ t.phase = .idle ∧ t.done = true

/-- The race of R135 (U17, D21): in one cycle all of the old or all of the new values, never a mix (R41). The bits that decide it are the model's (log 19), as is the reading of R29 for the first cycle of reset (log 9). -/
def Obligations.ReadsWhileBusyAreARaceOfOldAndNew : Prop :=
  (∀ s : State, s.now.rst = false → s.phase = .idle →
    s.hostRead = ⟨s.outputs.status, s.outputs.res, s.outputs.frameData⟩) ∧
  (∀ s u : State, s.now.rst = false → s.phase = .exec →
    ((∃ i, decode s.cur = .legal i ∧ exec i s = .next u) ∨
      (∃ why, decode s.cur = .illegal why ∧ u = raiseError (illegalCommandErr why s.cur) s)) →
    (s.seesNew = false →
      s.hostRead = ⟨s.status, s.res, frameData s.frame s.now.frameAddr⟩) ∧
    (s.seesNew = true →
      s.hostRead = ⟨u.status, u.res, frameData u.frame s.now.frameAddr⟩)) ∧
  (∀ s : State, s.now.rst = false → s.phase = .emit →
    (s.seesNew = false → s.hostRead =
      ⟨{ s with fvalid := s.oldFvalid }.status, s.res, frameData s.oldFrame s.now.frameAddr⟩) ∧
    (s.seesNew = true →
      s.hostRead = ⟨s.status, s.res, frameData s.frame s.now.frameAddr⟩)) ∧
  (∀ s t : State, step s = .next t → s.now.rst = false → t.busy = true →
    (s.busy = false → t.oldFrame = s.frame ∧ t.oldFvalid = s.fvalid ∧ t.seesNew = t.now.readsNew) ∧
    (s.busy = true → t.oldFrame = s.oldFrame ∧ t.oldFvalid = s.oldFvalid ∧
      t.seesNew = (s.seesNew || t.now.readsNew))) ∧
  (∀ s : State, s.now.rst = true →
    s.outputs.status = 0x0000#16 ∧ s.outputs.res = 0x000000#24 ∧ s.outputs.frameData = 0x00#8 ∧
    s.hostRead = ⟨0x0000#16, 0x000000#24, 0x00#8⟩) ∧
  (∀ (s : State) (a : Bool),
    step { s with now := { s.now with readsNew := a } } = step s) ∧
  (∀ (s t : State) (b : Bool), step s = .next t →
    ∃ c, step { s with seesNew := b } = .next { t with seesNew := c })
end

