-- ==== Sys2Proof/Laws/Memory.lean ====
section
/-! SUPPORT. The laws of the frame buffer: read after write, writes elsewhere, and the canonical form. -/

namespace Sys2Proof.Machine

@[simp] theorem read_nil (a : Nat) : Memory.read [] a = 0 := rfl

theorem read_cons (k : Nat) (v : Byte) (m : Memory) (a : Nat) :
    Memory.read ((k, v) :: m) a = if a = k then v else Memory.read m a := rfl

/-- An index that no cell has reads `0x00`. -/
theorem read_of_absent {m : Memory} {a : Nat} (h : ∀ c ∈ m, c.1 ≠ a) : Memory.read m a = 0 := by
  induction m with
  | nil => rfl
  | cons c m ih =>
    obtain ⟨k, v⟩ := c
    rw [read_cons, if_neg (fun e => h (k, v) (by simp) e.symm)]
    exact ih fun c hc => h c (by simp [hc])

theorem read_insertCell (m : Memory) (a : Nat) (v : Byte) (b : Nat) (h : ∀ c ∈ m, c.1 ≠ a) :
    Memory.read (Memory.insertCell m a v) b = if b = a then v else Memory.read m b := by
  induction m with
  | nil => simp [Memory.insertCell, read_cons]
  | cons c m ih =>
    obtain ⟨k, x⟩ := c
    have hka : k ≠ a := h (k, x) (by simp)
    have ih := ih fun c hc => h c (by simp [hc])
    simp only [Memory.insertCell]
    split
    · simp [read_cons]
    · rw [read_cons, ih, read_cons]
      split <;> split <;> simp_all

theorem read_cleared (m : Memory) (a b : Nat) (h : b ≠ a) :
    Memory.read (m.filter (fun c => c.1 != a)) b = Memory.read m b := by
  induction m with
  | nil => rfl
  | cons c m ih =>
    obtain ⟨k, x⟩ := c
    simp only [List.filter_cons]
    split
    · rw [read_cons, read_cons, ih]
    · rename_i hk
      have hk : k = a := by simpa using hk
      rw [ih, read_cons, if_neg (by omega)]

theorem cleared_absent (m : Memory) (a : Nat) : ∀ c ∈ m.filter (fun c => c.1 != a), c.1 ≠ a := by
  intro c hc
  simpa using (List.mem_filter.mp hc).2

/-- One write, read anywhere: the written index gives the value, every other index is as before. -/
theorem read_write (m : Memory) (a : Nat) (v : Byte) (b : Nat) :
    Memory.read (Memory.write m a v) b = if b = a then v else Memory.read m b := by
  unfold Memory.write
  dsimp only
  split
  · rename_i hv
    by_cases hb : b = a
    · rw [if_pos hb, hb, read_of_absent (cleared_absent m a), hv]
    · rw [if_neg hb, read_cleared m a b hb]
  · rw [read_insertCell _ _ _ _ (cleared_absent m a)]
    split
    · rfl
    · rename_i hb; exact read_cleared m a b hb

theorem read_write_same (m : Memory) (a : Nat) (v : Byte) :
    Memory.read (Memory.write m a v) a = v := by simp [read_write]

theorem read_write_other (m : Memory) {a b : Nat} (v : Byte) (h : b ≠ a) :
    Memory.read (Memory.write m a v) b = Memory.read m b := by simp [read_write, h]

/-- A run of writes, read anywhere: the bytes written are read back in order, every other index is as before. -/
theorem read_writeBytes (bs : List Byte) (m : Memory) (a b : Nat) :
    Memory.read (Memory.writeBytes m a bs) b =
      if a ≤ b ∧ b < a + bs.length then bs.getD (b - a) 0 else Memory.read m b := by
  induction bs generalizing m a with
  | nil => simp only [Memory.writeBytes, List.length_nil]; rw [if_neg (by omega)]
  | cons x bs ih =>
    simp only [Memory.writeBytes, List.length_cons]
    rw [ih, read_write]
    by_cases hb : b = a
    · subst hb; rw [if_neg (by omega)]; simp
    · by_cases hr : a + 1 ≤ b ∧ b < a + 1 + bs.length
      · rw [if_pos hr, if_pos (by omega), show b - a = (b - (a + 1)) + 1 by omega]; simp
      · rw [if_neg hr, if_neg hb, if_neg (by omega)]

/-! ### The canonical form -/

theorem wf_iff (m : Memory) :
    Memory.wf m = true ↔
      m.Pairwise (fun c d => c.1 < d.1) ∧ ∀ c ∈ m, c.1 < Config.frameN ∧ c.2 ≠ 0 := by
  simp [Memory.wf]

@[simp] theorem wf_nil : Memory.wf [] = true := rfl

theorem mem_insertCell {m : Memory} {a : Nat} {v : Byte} {c : Host.Cell}
    (h : c ∈ Memory.insertCell m a v) : c = (a, v) ∨ c ∈ m := by
  induction m with
  | nil => exact .inl (by simpa [Memory.insertCell] using h)
  | cons d m ih =>
    obtain ⟨k, x⟩ := d
    simp only [Memory.insertCell] at h
    split at h
    · simpa using h
    · rcases List.mem_cons.mp h with h | h
      · exact .inr (by simp [h])
      · exact (ih h).imp_right (List.mem_cons_of_mem _)

theorem pairwise_insertCell {m : Memory} {a : Nat} {v : Byte}
    (hp : m.Pairwise (fun c d => c.1 < d.1)) (ha : ∀ c ∈ m, c.1 ≠ a) :
    (Memory.insertCell m a v).Pairwise (fun c d => c.1 < d.1) := by
  induction m with
  | nil => simp [Memory.insertCell]
  | cons d m ih =>
    obtain ⟨k, x⟩ := d
    have hka : k ≠ a := ha (k, x) (by simp)
    obtain ⟨hk, hm⟩ := List.pairwise_cons.mp hp
    simp only [Memory.insertCell]
    split
    · rename_i hlt
      refine List.pairwise_cons.mpr ⟨?_, hp⟩
      intro c hc
      rcases List.mem_cons.mp hc with rfl | hc
      · exact hlt
      · exact Nat.lt_trans hlt (hk c hc)
    · rename_i hlt
      refine List.pairwise_cons.mpr ⟨?_, ih hm fun c hc => ha c (by simp [hc])⟩
      intro c hc
      rcases mem_insertCell hc with rfl | hc
      · show k < a; omega
      · exact hk c hc

/-- Every write to a byte of the frame keeps the canonical form. -/
theorem wf_write {m : Memory} {a : Nat} (v : Byte) (h : Memory.wf m = true) (ha : a < Config.frameN) :
    Memory.wf (Memory.write m a v) = true := by
  obtain ⟨hp, hc⟩ := (wf_iff m).mp h
  have hcl : Memory.wf (m.filter (fun c => c.1 != a)) = true :=
    (wf_iff _).mpr ⟨hp.filter _, fun c hm => hc c (List.mem_filter.mp hm).1⟩
  unfold Memory.write
  dsimp only
  split
  · exact hcl
  · rename_i hv
    obtain ⟨hp', hc'⟩ := (wf_iff _).mp hcl
    refine (wf_iff _).mpr ⟨pairwise_insertCell hp' (cleared_absent m a), fun c hm => ?_⟩
    rcases mem_insertCell hm with rfl | hm
    · exact ⟨ha, hv⟩
    · exact hc' c hm

/-- A frame update keeps the canonical form. -/
theorem wf_writeBytes (bs : List Byte) {m : Memory} {a : Nat} (h : Memory.wf m = true)
    (ha : a + bs.length ≤ Config.frameN) : Memory.wf (Memory.writeBytes m a bs) = true := by
  induction bs generalizing m a with
  | nil => exact h
  | cons b bs ih =>
    simp only [List.length_cons] at ha
    exact ih (wf_write b h (by omega)) (by omega)

/-- In canonical form no index past 16 holds a byte. -/
theorem read_of_wf_of_le {m : Memory} (h : Memory.wf m = true) {a : Nat} (ha : Config.frameN ≤ a) :
    Memory.read m a = 0 :=
  read_of_absent fun c hc => by have := (((wf_iff m).mp h).2 c hc).1; omega

/-- The cells of a canonical memory are its non-zero bytes. -/
theorem mem_of_wf_iff {m : Memory} (h : Memory.wf m = true) (a : Nat) (v : Byte) :
    (a, v) ∈ m ↔ Memory.read m a = v ∧ v ≠ 0 := by
  obtain ⟨hp, hc⟩ := (wf_iff m).mp h
  clear h
  induction m with
  | nil => simp only [read_nil]; constructor
           · intro h; cases h
           · rintro ⟨rfl, h⟩; exact absurd rfl h
  | cons d m ih =>
    obtain ⟨k, x⟩ := d
    obtain ⟨hk, hm⟩ := List.pairwise_cons.mp hp
    have ih := ih hm fun c hm => hc c (by simp [hm])
    have hx : x ≠ 0 := (hc (k, x) (by simp)).2
    rw [read_cons, List.mem_cons, Prod.mk.injEq]
    by_cases ha : a = k
    · subst ha
      have hno : (a, v) ∉ m := fun hm => Nat.lt_irrefl _ (hk (a, v) hm)
      simp only [hno, or_false, true_and, if_true]
      constructor
      · rintro rfl; exact ⟨rfl, hx⟩
      · rintro ⟨h, _⟩; exact h.symm
    · simp [ha, ih]

/-- Canonical memories that read the same at every index are equal data. -/
theorem memory_ext {m n : Memory} (hm : Memory.wf m = true) (hn : Memory.wf n = true)
    (h : ∀ a, Memory.read m a = Memory.read n a) : m = n := by
  have hp := ((wf_iff m).mp hm).1
  have hq := ((wf_iff n).mp hn).1
  have hmem : ∀ c, c ∈ m ↔ c ∈ n := fun ⟨a, v⟩ => by
    rw [mem_of_wf_iff hm, mem_of_wf_iff hn, h]
  have hnd : m.Nodup := hp.imp fun hlt e => by rw [e] at hlt; exact Nat.lt_irrefl _ hlt
  have hnd' : n.Nodup := hq.imp fun hlt e => by rw [e] at hlt; exact Nat.lt_irrefl _ hlt
  have hperm : m.Perm n := (List.perm_ext_iff_of_nodup hnd hnd').mpr hmem
  exact hperm.eq_of_pairwise (fun a b _ _ hab hba => absurd (Nat.lt_trans hab hba) (Nat.lt_irrefl _)) hp hq

/-- The 17 bytes of a frame that was written whole are the bytes written (R96). -/
theorem frameBytes_writeBytes (m : Memory) (bs : List Byte) (h : bs.length = Config.frameN) :
    frameBytes (Memory.writeBytes m 0 bs) = bs := by
  apply List.ext_getElem
  · simp [frameBytes, h]
  · intro i h1 h2
    simp only [frameBytes, List.getElem_map, List.getElem_range]
    rw [read_writeBytes, if_pos (by omega)]
    simp [h2]

end Sys2Proof.Machine
end

