-- ==== Sys2Proof/Laws/State.lean ====
section
/-! SUPPORT. One lemma per field of State for each shared update, so that no later proof unfolds a record update. -/

namespace Sys2Proof.Machine

/-! ### The completion edge (R62) -/

@[simp] theorem complete_set (s : State) : (complete s).set = s.set := rfl
@[simp] theorem complete_cur (s : State) : (complete s).cur = s.cur := rfl
@[simp] theorem complete_res (s : State) : (complete s).res = s.res := rfl
@[simp] theorem complete_frame (s : State) : (complete s).frame = s.frame := rfl
@[simp] theorem complete_done (s : State) : (complete s).done = true := rfl
@[simp] theorem complete_fvalid (s : State) : (complete s).fvalid = s.fvalid := rfl
@[simp] theorem complete_errKind (s : State) : (complete s).errKind = s.errKind := rfl
@[simp] theorem complete_errValue (s : State) : (complete s).errValue = s.errValue := rfl
@[simp] theorem complete_phase (s : State) : (complete s).phase = .idle := rfl
@[simp] theorem complete_seqIdx (s : State) : (complete s).seqIdx = s.seqIdx := rfl
@[simp] theorem complete_offer (s : State) : (complete s).offer = false := rfl
@[simp] theorem complete_pDelayW (s : State) : (complete s).pDelayW = s.pDelayW := rfl
@[simp] theorem complete_now (s : State) : (complete s).now = s.now := rfl
@[simp] theorem complete_later (s : State) : (complete s).later = s.later := rfl
@[simp] theorem complete_oldFrame (s : State) : (complete s).oldFrame = s.oldFrame := rfl
@[simp] theorem complete_oldFvalid (s : State) : (complete s).oldFvalid = s.oldFvalid := rfl
@[simp] theorem complete_seesNew (s : State) : (complete s).seesNew = s.seesNew := rfl
@[simp] theorem complete_rest (s : State) : (complete s).rest = s.rest := rfl
@[simp] theorem complete_sink (s : State) : (complete s).sink = s.sink := rfl

/-! ### Raising an error (R118) -/

@[simp] theorem raiseError_set (e : Err) (s : State) : (raiseError e s).set = s.set := rfl
@[simp] theorem raiseError_cur (e : Err) (s : State) : (raiseError e s).cur = s.cur := rfl
@[simp] theorem raiseError_res (e : Err) (s : State) : (raiseError e s).res = s.res := rfl
@[simp] theorem raiseError_frame (e : Err) (s : State) : (raiseError e s).frame = s.frame := rfl
@[simp] theorem raiseError_done (e : Err) (s : State) : (raiseError e s).done = true := rfl
@[simp] theorem raiseError_fvalid (e : Err) (s : State) : (raiseError e s).fvalid = s.fvalid := rfl
@[simp] theorem raiseError_errKind (e : Err) (s : State) : (raiseError e s).errKind = e.kind := rfl
@[simp] theorem raiseError_errValue (e : Err) (s : State) : (raiseError e s).errValue = e.value := rfl
@[simp] theorem raiseError_phase (e : Err) (s : State) : (raiseError e s).phase = .idle := rfl
@[simp] theorem raiseError_seqIdx (e : Err) (s : State) : (raiseError e s).seqIdx = s.seqIdx := rfl
@[simp] theorem raiseError_offer (e : Err) (s : State) : (raiseError e s).offer = false := rfl
@[simp] theorem raiseError_pDelayW (e : Err) (s : State) : (raiseError e s).pDelayW = s.pDelayW := rfl
@[simp] theorem raiseError_now (e : Err) (s : State) : (raiseError e s).now = s.now := rfl
@[simp] theorem raiseError_later (e : Err) (s : State) : (raiseError e s).later = s.later := rfl
@[simp] theorem raiseError_oldFrame (e : Err) (s : State) : (raiseError e s).oldFrame = s.oldFrame := rfl
@[simp] theorem raiseError_oldFvalid (e : Err) (s : State) : (raiseError e s).oldFvalid = s.oldFvalid := rfl
@[simp] theorem raiseError_seesNew (e : Err) (s : State) : (raiseError e s).seesNew = s.seesNew := rfl
@[simp] theorem raiseError_rest (e : Err) (s : State) : (raiseError e s).rest = s.rest := rfl
@[simp] theorem raiseError_sink (e : Err) (s : State) : (raiseError e s).sink = s.sink := rfl

/-! ### The acceptance edge (R59) -/

@[simp] theorem accept_set (s : State) : (accept s).set = s.now.settings.latch s.pDelayW := rfl
@[simp] theorem accept_cur (s : State) : (accept s).cur = s.now.cmdWord := rfl
@[simp] theorem accept_res (s : State) : (accept s).res = s.res := rfl
@[simp] theorem accept_frame (s : State) : (accept s).frame = s.frame := rfl
@[simp] theorem accept_done (s : State) : (accept s).done = false := rfl
@[simp] theorem accept_fvalid (s : State) : (accept s).fvalid = s.fvalid := rfl
@[simp] theorem accept_errKind (s : State) : (accept s).errKind = .none := rfl
@[simp] theorem accept_errValue (s : State) : (accept s).errValue = 0x00#8 := rfl
@[simp] theorem accept_phase (s : State) : (accept s).phase = .exec := rfl
@[simp] theorem accept_seqIdx (s : State) : (accept s).seqIdx = 0#9 := rfl
@[simp] theorem accept_offer (s : State) : (accept s).offer = false := rfl
@[simp] theorem accept_pDelayW (s : State) : (accept s).pDelayW = s.pDelayW := rfl
@[simp] theorem accept_now (s : State) : (accept s).now = s.now := rfl
@[simp] theorem accept_later (s : State) : (accept s).later = s.later := rfl
@[simp] theorem accept_oldFrame (s : State) : (accept s).oldFrame = s.frame := rfl
@[simp] theorem accept_oldFvalid (s : State) : (accept s).oldFvalid = s.fvalid := rfl
@[simp] theorem accept_seesNew (s : State) : (accept s).seesNew = false := rfl
@[simp] theorem accept_rest (s : State) : (accept s).rest = s.rest := rfl
@[simp] theorem accept_sink (s : State) : (accept s).sink = s.sink := rfl

/-! ### The reset edge (R29) -/

@[simp] theorem resetEdge_set (s : State) : (resetEdge s).set = Settings.zero := rfl
@[simp] theorem resetEdge_cur (s : State) : (resetEdge s).cur = 0x0000#16 := rfl
@[simp] theorem resetEdge_res (s : State) : (resetEdge s).res = 0x000000#24 := rfl
@[simp] theorem resetEdge_frame (s : State) : (resetEdge s).frame = [] := rfl
@[simp] theorem resetEdge_done (s : State) : (resetEdge s).done = false := rfl
@[simp] theorem resetEdge_fvalid (s : State) : (resetEdge s).fvalid = false := rfl
@[simp] theorem resetEdge_errKind (s : State) : (resetEdge s).errKind = .none := rfl
@[simp] theorem resetEdge_errValue (s : State) : (resetEdge s).errValue = 0x00#8 := rfl
@[simp] theorem resetEdge_phase (s : State) : (resetEdge s).phase = .idle := rfl
@[simp] theorem resetEdge_seqIdx (s : State) : (resetEdge s).seqIdx = 0#9 := rfl
@[simp] theorem resetEdge_offer (s : State) : (resetEdge s).offer = false := rfl
@[simp] theorem resetEdge_pDelayW (s : State) : (resetEdge s).pDelayW = s.pDelayW := rfl
@[simp] theorem resetEdge_now (s : State) : (resetEdge s).now = s.now := rfl
@[simp] theorem resetEdge_later (s : State) : (resetEdge s).later = s.later := rfl
@[simp] theorem resetEdge_oldFrame (s : State) : (resetEdge s).oldFrame = s.oldFrame := rfl
@[simp] theorem resetEdge_oldFvalid (s : State) : (resetEdge s).oldFvalid = s.oldFvalid := rfl
@[simp] theorem resetEdge_seesNew (s : State) : (resetEdge s).seesNew = s.seesNew := rfl
@[simp] theorem resetEdge_rest (s : State) : (resetEdge s).rest = s.rest := rfl
@[simp] theorem resetEdge_sink (s : State) : (resetEdge s).sink = s.sink := rfl

/-! ### The end of EXEC of an emitting command (R105) -/

@[simp] theorem startEmit_set (s : State) : (startEmit s).set = s.set := rfl
@[simp] theorem startEmit_cur (s : State) : (startEmit s).cur = s.cur := rfl
@[simp] theorem startEmit_res (s : State) : (startEmit s).res = s.res := rfl
@[simp] theorem startEmit_frame (s : State) : (startEmit s).frame = s.frame := rfl
@[simp] theorem startEmit_done (s : State) : (startEmit s).done = s.done := rfl
@[simp] theorem startEmit_fvalid (s : State) : (startEmit s).fvalid = s.fvalid := rfl
@[simp] theorem startEmit_errKind (s : State) : (startEmit s).errKind = s.errKind := rfl
@[simp] theorem startEmit_errValue (s : State) : (startEmit s).errValue = s.errValue := rfl
@[simp] theorem startEmit_phase (s : State) : (startEmit s).phase = .emit := rfl
@[simp] theorem startEmit_seqIdx (s : State) : (startEmit s).seqIdx = 0#9 := rfl
@[simp] theorem startEmit_offer (s : State) : (startEmit s).offer = !s.now.offerWait := rfl
@[simp] theorem startEmit_pDelayW (s : State) : (startEmit s).pDelayW = s.pDelayW := rfl
@[simp] theorem startEmit_now (s : State) : (startEmit s).now = s.now := rfl
@[simp] theorem startEmit_later (s : State) : (startEmit s).later = s.later := rfl
@[simp] theorem startEmit_oldFrame (s : State) : (startEmit s).oldFrame = s.oldFrame := rfl
@[simp] theorem startEmit_oldFvalid (s : State) : (startEmit s).oldFvalid = s.oldFvalid := rfl
@[simp] theorem startEmit_seesNew (s : State) : (startEmit s).seesNew = s.seesNew := rfl
@[simp] theorem startEmit_rest (s : State) : (startEmit s).rest = s.rest := rfl
@[simp] theorem startEmit_sink (s : State) : (startEmit s).sink = s.sink := rfl

/-! ### The frame update (R96, R110) -/

@[simp] theorem storeFrame_set (bytes : List Byte) (s : State) : (storeFrame bytes s).set = s.set := rfl
@[simp] theorem storeFrame_cur (bytes : List Byte) (s : State) : (storeFrame bytes s).cur = s.cur := rfl
@[simp] theorem storeFrame_res (bytes : List Byte) (s : State) : (storeFrame bytes s).res = s.res := rfl
@[simp] theorem storeFrame_frame (bytes : List Byte) (s : State) : (storeFrame bytes s).frame = Memory.writeBytes s.frame 0 bytes := rfl
@[simp] theorem storeFrame_done (bytes : List Byte) (s : State) : (storeFrame bytes s).done = s.done := rfl
@[simp] theorem storeFrame_fvalid (bytes : List Byte) (s : State) : (storeFrame bytes s).fvalid = true := rfl
@[simp] theorem storeFrame_errKind (bytes : List Byte) (s : State) : (storeFrame bytes s).errKind = s.errKind := rfl
@[simp] theorem storeFrame_errValue (bytes : List Byte) (s : State) : (storeFrame bytes s).errValue = s.errValue := rfl
@[simp] theorem storeFrame_phase (bytes : List Byte) (s : State) : (storeFrame bytes s).phase = s.phase := rfl
@[simp] theorem storeFrame_seqIdx (bytes : List Byte) (s : State) : (storeFrame bytes s).seqIdx = s.seqIdx := rfl
@[simp] theorem storeFrame_offer (bytes : List Byte) (s : State) : (storeFrame bytes s).offer = s.offer := rfl
@[simp] theorem storeFrame_pDelayW (bytes : List Byte) (s : State) : (storeFrame bytes s).pDelayW = s.pDelayW := rfl
@[simp] theorem storeFrame_now (bytes : List Byte) (s : State) : (storeFrame bytes s).now = s.now := rfl
@[simp] theorem storeFrame_later (bytes : List Byte) (s : State) : (storeFrame bytes s).later = s.later := rfl
@[simp] theorem storeFrame_oldFrame (bytes : List Byte) (s : State) : (storeFrame bytes s).oldFrame = s.oldFrame := rfl
@[simp] theorem storeFrame_oldFvalid (bytes : List Byte) (s : State) : (storeFrame bytes s).oldFvalid = s.oldFvalid := rfl
@[simp] theorem storeFrame_seesNew (bytes : List Byte) (s : State) : (storeFrame bytes s).seesNew = s.seesNew := rfl
@[simp] theorem storeFrame_rest (bytes : List Byte) (s : State) : (storeFrame bytes s).rest = s.rest := rfl
@[simp] theorem storeFrame_sink (bytes : List Byte) (s : State) : (storeFrame bytes s).sink = s.sink := rfl

/-! ### The passing of a cycle: no register changes (log 1) -/

@[simp] theorem advance_set (s : State) : (advance s).set = s.set := rfl
@[simp] theorem advance_cur (s : State) : (advance s).cur = s.cur := rfl
@[simp] theorem advance_res (s : State) : (advance s).res = s.res := rfl
@[simp] theorem advance_frame (s : State) : (advance s).frame = s.frame := rfl
@[simp] theorem advance_done (s : State) : (advance s).done = s.done := rfl
@[simp] theorem advance_fvalid (s : State) : (advance s).fvalid = s.fvalid := rfl
@[simp] theorem advance_errKind (s : State) : (advance s).errKind = s.errKind := rfl
@[simp] theorem advance_errValue (s : State) : (advance s).errValue = s.errValue := rfl
@[simp] theorem advance_phase (s : State) : (advance s).phase = s.phase := rfl
@[simp] theorem advance_seqIdx (s : State) : (advance s).seqIdx = s.seqIdx := rfl
@[simp] theorem advance_offer (s : State) : (advance s).offer = s.offer := rfl
@[simp] theorem advance_pDelayW (s : State) : (advance s).pDelayW = s.pDelayW := rfl
@[simp] theorem advance_oldFrame (s : State) : (advance s).oldFrame = s.oldFrame := rfl
@[simp] theorem advance_oldFvalid (s : State) : (advance s).oldFvalid = s.oldFvalid := rfl
@[simp] theorem advance_rest (s : State) : (advance s).rest = s.rest := rfl
@[simp] theorem advance_sink (s : State) : (advance s).sink = s.sink := rfl

/-- The next cycle's ports: the first of `later`, or the resting cycle when there is none (log 2). -/
theorem advance_now (s : State) : (advance s).now = s.later.headD s.rest.settled := rfl

theorem advance_later (s : State) : (advance s).later = s.later.tail := rfl

/-- Whether the reads of the next cycle return the new values (R135; log 19). -/
theorem advance_seesNew (s : State) :
    (advance s).seesNew = (s.busy && (s.seesNew || (advance s).now.readsNew)) := rfl

/-- After an edge the cycles to come are those of before, one further on. -/
theorem advance_cycleAt (s : State) (k : Nat) : (advance s).cycleAt k = s.cycleAt (k + 1) := by
  unfold State.cycleAt advance State.nextCycle
  cases s.later with
  | nil => cases k <;> simp
  | cons c cs => simp

@[simp] theorem cycleAt_zero (s : State) : s.cycleAt 0 = s.now := rfl

/-! ### Computed views read only the registers -/

@[simp] theorem advance_delay (s : State) : (advance s).delay = s.delay := by simp [State.delay]

@[simp] theorem advance_busy (s : State) : (advance s).busy = s.busy := by simp [State.busy]

@[simp] theorem advance_status (s : State) : (advance s).status = s.status := by
  simp [State.status]

@[simp] theorem advance_sched (s : State) : (advance s).sched = s.sched := by simp [State.sched]

@[simp] theorem advance_visible (s : State) : (advance s).visible = s.visible := by
  simp [State.visible]

@[simp] theorem advance_reportedErr (s : State) : (advance s).reportedErr = s.reportedErr := rfl

@[simp] theorem advance_emitsRender (s : State) : emitsRender (advance s) = emitsRender s := rfl

@[simp] theorem complete_busy (s : State) : (complete s).busy = false := rfl

@[simp] theorem raiseError_busy (e : Err) (s : State) : (raiseError e s).busy = false := rfl

@[simp] theorem accept_busy (s : State) : (accept s).busy = true := rfl

@[simp] theorem complete_visible (s : State) : (complete s).visible = s.visible := rfl

@[simp] theorem raiseError_visible (e : Err) (s : State) : (raiseError e s).visible = s.visible := rfl

@[simp] theorem accept_visible (s : State) : (accept s).visible = s.visible := rfl

@[simp] theorem startEmit_visible (s : State) : (startEmit s).visible = s.visible := rfl

/-- BUSY is 1 exactly when PHASE is not IDLE (R21). -/
theorem busy_eq_true_iff (s : State) : s.busy = true ↔ s.phase ≠ .idle := by
  simp [State.busy]

end Sys2Proof.Machine
end

