-- ==== Sys2Proof/Laws/Ops.lean ====
section
/-! SUPPORT. What each shared operation can do, said once: the later proofs cite these and do not unfold. -/

namespace Sys2Proof.Machine

/-! ### Non-emitting commands -/

/-- A non-emitting command answers a next state exactly in EXEC, and then its effect's. -/
theorem atExec_next_iff {s t : State} {f : State → State} :
    atExec s f = .next t ↔ s.phase = .exec ∧ t = f s := by
  unfold atExec
  cases h : s.phase <;> simp [eq_comm]

theorem atExec_exec {s : State} (h : s.phase = .exec) (f : State → State) :
    atExec s f = .next (f s) := atExec_next_iff.mpr ⟨h, rfl⟩

theorem encEffect_ok {n : Nat} (v : BitVec n) (s : State) :
    encEffect (.ok v) s = complete { s with res := v.setWidth 24 } := rfl

theorem encEffect_error {n : Nat} (e : Err) (s : State) :
    encEffect (n := n) (.error e) s = raiseError e s := rfl

/-- The end of an `enc.*` command, whichever way it ends: it is complete, and of the registers only RES, the error
fields and the lifecycle's may differ. -/
theorem encEffect_frame {n : Nat} (r : Except Err (BitVec n)) (s : State) :
    encEffect r s =
      complete { s with
        res := (encEffect r s).res, errKind := (encEffect r s).errKind
        errValue := (encEffect r s).errValue } := by
  cases r <;> rfl

/-! ### build and render -/

theorem buildThen_ok {s : State} {bytes : List Byte} (f : State → State)
    (h : buildCommand s.set s.delay = .ok bytes) : buildThen f s = f (storeFrame bytes s) := by
  unfold buildThen; rw [h]

theorem buildThen_error {s : State} {e : Err} (f : State → State)
    (h : buildCommand s.set s.delay = .error e) :
    buildThen f s = raiseError e { s with fvalid := false } := by
  unfold buildThen; rw [h]

/-! ### The symbol stream -/

theorem symAt_eq_some_iff {sched : List PulseSym} {i : Nat} {y : SymOut} :
    symAt sched i = some y ↔
      ∃ x, sched[i]? = some x ∧ y = ⟨x.code, symRom x, decide (i + 1 = sched.length)⟩ := by
  unfold symAt
  cases h : sched[i]? <;> simp [eq_comm]

theorem symAt_of_lt {sched : List PulseSym} {i : Nat} (h : i < sched.length) :
    symAt sched i = some ⟨sched[i].code, symRom sched[i], decide (i + 1 = sched.length)⟩ :=
  symAt_eq_some_iff.mpr ⟨sched[i], by simp [h], rfl⟩

theorem symAt_isSome_iff {sched : List PulseSym} {i : Nat} :
    (symAt sched i).isSome = true ↔ i < sched.length := by
  unfold symAt
  rcases Nat.lt_or_ge i sched.length with h | h
  · simp [h]
  · simp [Nat.not_lt.mpr h]

/-- Everything an edge of the emission loop can do (R106): raise an offer or wait, hold the offer, pass the last
symbol and complete, or pass a symbol and move on. -/
theorem emitEdge_cases {sched : List PulseSym} {s t : State} (h : emitEdge sched s = .next t) :
    ∃ y, symAt sched s.seqIdx.toNat = some y ∧
      ((s.offer = false ∧ t = { s with offer := !s.now.offerWait }) ∨
       (s.offer = true ∧ s.now.symReady = false ∧ t = s) ∨
       (s.offer = true ∧ s.now.symReady = true ∧ y.last = true ∧
         t = complete { s with sink := s.sink ++ [y] }) ∨
       (s.offer = true ∧ s.now.symReady = true ∧ y.last = false ∧
         t = { s with
           sink := s.sink ++ [y], seqIdx := s.seqIdx + 1#9, offer := !s.now.offerWait })) := by
  unfold emitEdge at h
  split at h
  · cases h
  · rename_i y hy
    refine ⟨y, hy, ?_⟩
    cases ho : s.offer with
    | false => rw [ho] at h; cases h; exact .inl ⟨rfl, rfl⟩
    | true =>
      rw [ho] at h
      cases hr : s.now.symReady with
      | false => rw [hr] at h; cases h; exact .inr (.inl ⟨rfl, rfl, rfl⟩)
      | true =>
        rw [hr] at h
        cases hl : y.last with
        | true => simp only [hl, if_true] at h; cases h; exact .inr (.inr (.inl ⟨rfl, rfl, rfl, rfl⟩))
        | false =>
          simp only [hl, if_true] at h
          cases h
          exact .inr (.inr (.inr ⟨rfl, rfl, rfl, rfl⟩))

/-- An emitting command in EXEC ends EXEC as its start says. -/
theorem emitCommand_exec {s : State} (start : State → State) (sched : List PulseSym)
    (h : s.phase = .exec) : emitCommand start sched s = .next (start s) := by
  unfold emitCommand; rw [h]

/-- An emitting command in EMIT does one edge of the loop. -/
theorem emitCommand_emit {s : State} (start : State → State) (sched : List PulseSym)
    (h : s.phase = .emit) : emitCommand start sched s = emitEdge sched s := by
  unfold emitCommand; rw [h]

theorem emitCommand_next_iff {start : State → State} {sched : List PulseSym} {s t : State} :
    emitCommand start sched s = .next t ↔
      (s.phase = .exec ∧ t = start s) ∨ (s.phase = .emit ∧ emitEdge sched s = .next t) := by
  unfold emitCommand
  cases h : s.phase <;> simp [eq_comm]

/-- `emits` with one of the six codes starts its emission; any other code raises (R109). -/
theorem startEmits_cases (c : SymCode) (s : State) :
    ((∃ y, symOfCode c = some y) ∧ startEmits c s = startEmit s) ∨
      (symOfCode c = none ∧ startEmits c s = raiseError ⟨.illegalCommand, c.setWidth 8⟩ s) := by
  unfold startEmits
  cases h : symOfCode c <;> simp

/-- `sym_code` tells the symbol: reading a symbol's code back gives the symbol (R55). -/
@[simp] theorem symOfCode_code (y : PulseSym) : symOfCode y.code = some y := by cases y <;> rfl

/-- Every symbol of a schedule is one the stream may carry. -/
theorem fits_of_symAt {sched : List PulseSym} {i : Nat} {y : SymOut} (h : symAt sched i = some y) :
    y.fits = true := by
  obtain ⟨x, -, rfl⟩ := symAt_eq_some_iff.mp h
  simp [SymOut.fits]

/-! ### Every command at once -/

/-- The state at the end of a command's EXEC (R60). -/
def execEnd : Instr → State → State
  | .nop, s => complete s
  | .encMode, s => encEffect (encodeMode s.set.mode) s
  | .encTmr, s => encEffect (.ok (encodeTimerMode s.delay)) s
  | .encPwr, s => encEffect (encodePower s.set.power) s
  | .encFan, s => encEffect (encodeFan s.set.fan) s
  | .encSwg, s => encEffect (encodeSwing s.set.swing) s
  | .encTemp, s => encEffect (encodeTemperature s.set.temp) s
  | .encDly, s => encEffect (.ok (delayBytes s.delay).packed) s
  | .build, s => buildThen complete s
  | .emitb _, s => startEmit s
  | .emits c, s => startEmits c s
  | .render, s => buildThen startEmit s

/-- The schedule of a command in a state (R104). -/
def schedOf : Instr → State → List PulseSym
  | .emitb b, _ => encodeByte b
  | .emits c, _ => (symOfCode c).toList
  | .render, s => renderSeq (frameBytes s.frame)
  | .nop, _ | .encMode, _ | .encTmr, _ | .encPwr, _ | .encFan, _ => []
  | .encSwg, _ | .encTemp, _ | .encDly, _ | .build, _ => []

/-- The schedule of the command in CUR is `sched(CUR)` of R104. -/
theorem sched_of_legal {s : State} {i : Instr} (h : decode s.cur = .legal i) :
    s.sched = schedOf i s := by
  unfold State.sched
  rw [h]
  cases i <;> rfl

theorem sched_of_illegal {s : State} {why : Illegal} (h : decode s.cur = .illegal why) :
    s.sched = [] := by
  unfold State.sched
  rw [h]

/-- Everything a command can do at an edge: in EXEC it ends EXEC; in EMIT it does one edge of the loop on its own
schedule. -/
theorem exec_next_cases {i : Instr} {s t : State} (h : exec i s = .next t) :
    (s.phase = .exec ∧ t = execEnd i s) ∨
      (s.phase = .emit ∧ emitEdge (schedOf i s) s = .next t) := by
  cases i
  case emitb => exact emitCommand_next_iff.mp h
  case emits => exact emitCommand_next_iff.mp h
  case render => exact emitCommand_next_iff.mp h
  all_goals exact .inl (atExec_next_iff.mp h)

/-- In EXEC every command answers a next state. -/
theorem exec_exec (i : Instr) {s : State} (h : s.phase = .exec) : exec i s = .next (execEnd i s) := by
  cases i
  case emitb => exact emitCommand_exec _ _ h
  case emits => exact emitCommand_exec _ _ h
  case render => exact emitCommand_exec _ _ h
  all_goals exact atExec_exec h _

/-- In EMIT, while SEQ_IDX is below the schedule's length, every edge answers a next state. -/
theorem emitEdge_next {sched : List PulseSym} {s : State} (h : s.seqIdx.toNat < sched.length) :
    ∃ t, emitEdge sched s = .next t := by
  unfold emitEdge
  rw [symAt_of_lt h]
  dsimp only
  split
  · split
    · split <;> exact ⟨_, rfl⟩
    · exact ⟨_, rfl⟩
  · exact ⟨_, rfl⟩

/-- In EMIT a command whose schedule reaches SEQ_IDX does one edge of the loop. -/
theorem exec_emit {i : Instr} {s : State} (h : s.phase = .emit)
    (hl : s.seqIdx.toNat < (schedOf i s).length) : exec i s = emitEdge (schedOf i s) s := by
  cases i
  case emitb => exact emitCommand_emit _ _ h
  case emits => exact emitCommand_emit _ _ h
  case render => exact emitCommand_emit _ _ h
  all_goals exact absurd hl (Nat.not_lt_zero _)

/-- An illegal word answers a next state exactly in EXEC, and then the raised error's (R116). -/
theorem runIllegal_next_iff {why : Illegal} {s t : State} :
    runIllegal why s = .next t ↔
      s.phase = .exec ∧ t = raiseError (illegalCommandErr why s.cur) s := by
  unfold runIllegal
  cases h : s.phase <;> simp [eq_comm]

end Sys2Proof.Machine
end

