-- ==== Sys2Proof/Laws/Encoders.lean ====
section
/-! SUPPORT. One spec lemma per encoder function: what it can answer. -/

namespace Sys2Proof.Machine

/-! ### Settings -/

/-- Latching a delay pattern does not change the delay it stands for (R54; log 18). -/
theorem sintOfWidth_mod (W b : Nat) : sintOfWidth W (b % 2 ^ W) = sintOfWidth W b := by
  unfold sintOfWidth
  rw [show BitVec.ofNat W (b % 2 ^ W) = BitVec.ofNat W b from BitVec.eq_of_toNat_eq (by simp)]

theorem latch_delay_lt (W : Nat) (p : Settings) : (p.latch W).delay < 2 ^ W :=
  Nat.mod_lt _ (Nat.two_pow_pos W)

/-- The delay of an accepted command is that of the port (R16, R54). -/
theorem accept_delay (s : State) : (accept s).delay = sintOfWidth s.pDelayW s.now.settings.delay := by
  show sintOfWidth s.pDelayW (s.now.settings.latch s.pDelayW).delay = _
  exact sintOfWidth_mod _ _

/-! ### The Frame Builder -/

/-- `build_command` succeeds exactly when every field encoder does, and then with the layout of R89. -/
theorem buildCommand_ok_iff {S : Settings} {d : Int} {F : List Byte} :
    buildCommand S d = .ok F ↔
      ∃ mode pwr temp fan swg,
        encodeMode S.mode = .ok mode ∧ encodePower S.power = .ok pwr ∧
        encodeTemperature S.temp = .ok temp ∧ encodeFan S.fan = .ok fan ∧
        encodeSwing S.swing = .ok swg ∧
        F = withChecksum (frameBody mode (encodeTimerMode d) pwr temp fan swg (delayBytes d)) := by
  unfold buildCommand
  cases encodeMode S.mode <;> cases encodePower S.power <;> cases encodeTemperature S.temp <;>
    cases encodeFan S.fan <;> cases encodeSwing S.swing <;>
    simp [bind, Except.bind, pure, Except.pure, eq_comm]

/-- A built frame has 17 bytes (R89). -/
theorem buildCommand_length {S : Settings} {d : Int} {F : List Byte} (h : buildCommand S d = .ok F) :
    F.length = Config.frameN := by
  obtain ⟨mode, pwr, temp, fan, swg, -, -, -, -, -, rfl⟩ := buildCommand_ok_iff.mp h
  rfl

/-! ### The Pulse Encoder -/

@[simp] theorem encodeByte_length (b : Byte) : (encodeByte b).length = 8 := by simp [encodeByte]

@[simp] theorem encodeBytes_length (bs : List Byte) :
    (encodeBytes bs).length = 8 * bs.length := by
  induction bs with
  | nil => rfl
  | cons b bs ih =>
    simp only [encodeBytes, List.flatMap_cons, List.length_append, List.length_cons,
      encodeByte_length] at *
    omega

/-- The symbol of bit `k` of a byte (R99, R100). -/
theorem encodeByte_getElem (b : Byte) (k : Nat) (h : k < (encodeByte b).length) :
    (encodeByte b)[k] = bitSym (b.getLsbD k) := by simp [encodeByte]

end Sys2Proof.Machine
end

