-- ==== Sys2Proof/Laws/PerInstr.lean ====
section
/-! SUPPORT. Family TableRow: every command's word lies in its row of the opcode map (R47). -/

namespace Sys2Proof.Laws.TableRow

/-- A well-formed command's word has the bits that its row of the opcode map fixes. -/
def Statement (i : Instr) : Prop := i.wf = true → (opcodeRow i).matchesWord (encode i) = true

theorem nop : Statement .nop := fun _ => rfl
theorem encMode : Statement .encMode := fun _ => rfl
theorem encTmr : Statement .encTmr := fun _ => rfl
theorem encPwr : Statement .encPwr := fun _ => rfl
theorem encFan : Statement .encFan := fun _ => rfl
theorem encSwg : Statement .encSwg := fun _ => rfl
theorem encTemp : Statement .encTemp := fun _ => rfl
theorem encDly : Statement .encDly := fun _ => rfl
theorem build : Statement .build := fun _ => rfl
theorem emitb (b : Byte) : Statement (.emitb b) := by
  have h : ∀ b : Byte, Statement (.emitb b) := by unfold Statement; decide +kernel
  exact h b
theorem emits (s : SymCode) : Statement (.emits s) := by
  have h : ∀ s : SymCode, Statement (.emits s) := by unfold Statement; decide
  exact h s
theorem render : Statement .render := fun _ => rfl

end Sys2Proof.Laws.TableRow
end

