-- ==== Sys2Proof/Laws/Step.lean ====
section
/-! SUPPORT. What one step can do, said once. -/

namespace Sys2Proof.Machine

theorem advanceResult_next_iff {r : Result} {t : State} :
    advanceResult r = .next t ↔ ∃ u, r = .next u ∧ t = advance u := by
  cases r <;> simp [advanceResult, eq_comm]

/-- The edges that run no command: reset, acceptance, idling, and EXEC while `P_LAT_CMD` runs. -/
theorem commandFreeEdge_cases {s t : State} (h : commandFreeEdge s = some t) :
    (s.now.rst = true ∧ t = resetEdge s) ∨
    (s.now.rst = false ∧ s.phase = .idle ∧ s.now.cmdValid = true ∧ t = accept s) ∨
    (s.now.rst = false ∧ s.phase = .idle ∧ s.now.cmdValid = false ∧ t = s) ∨
    (s.now.rst = false ∧ s.phase = .exec ∧ s.now.execWait = true ∧ t = s) := by
  unfold commandFreeEdge at h
  cases hr : s.now.rst with
  | true => rw [hr] at h; cases h; exact .inl ⟨rfl, rfl⟩
  | false =>
    rw [hr] at h
    cases hp : s.phase with
    | idle =>
      rw [hp] at h
      cases hv : s.now.cmdValid <;> simp [idleEdge, State.cmdReady, hr, hp, hv] at h <;>
        simp [h]
    | exec =>
      rw [hp] at h
      cases hw : s.now.execWait <;> simp [hw] at h
      simp [h]
    | emit => rw [hp] at h; cases h

/-- At every other edge a command is in progress: the end of its EXEC, or EMIT. -/
theorem commandFreeEdge_none_iff {s : State} :
    commandFreeEdge s = none ↔
      s.now.rst = false ∧ ((s.phase = .exec ∧ s.now.execWait = false) ∨ s.phase = .emit) := by
  unfold commandFreeEdge
  cases hr : s.now.rst <;> cases hp : s.phase <;> cases hw : s.now.execWait <;> simp

theorem step_of_commandFree {s t : State} (h : commandFreeEdge s = some t) :
    step s = .next (advance t) := by
  unfold step; rw [h]

theorem step_of_legal {s : State} {i : Instr} (h : commandFreeEdge s = none)
    (hd : decode s.cur = .legal i) : step s = advanceResult (exec i s) := by
  unfold step; rw [h]; simp only [fetch]; rw [hd]

theorem step_of_illegal {s : State} {why : Illegal} (h : commandFreeEdge s = none)
    (hd : decode s.cur = .illegal why) : step s = advanceResult (runIllegal why s) := by
  unfold step; rw [h]; simp only [fetch]; rw [hd]

/-- Everything a step can do when it answers a next state. -/
theorem step_cases {s t : State} (h : step s = .next t) :
    ∃ u, t = advance u ∧
      ((s.now.rst = true ∧ u = resetEdge s) ∨
       (s.now.rst = false ∧ s.phase = .idle ∧ s.now.cmdValid = true ∧ u = accept s) ∨
       (s.now.rst = false ∧ s.phase = .idle ∧ s.now.cmdValid = false ∧ u = s) ∨
       (s.now.rst = false ∧ s.phase = .exec ∧ s.now.execWait = true ∧ u = s) ∨
       (s.now.rst = false ∧ s.phase = .exec ∧ s.now.execWait = false ∧
         ((∃ i, decode s.cur = .legal i ∧ u = execEnd i s) ∨
          (∃ why, decode s.cur = .illegal why ∧
            u = raiseError (illegalCommandErr why s.cur) s))) ∨
       (s.now.rst = false ∧ s.phase = .emit ∧
         ∃ i, decode s.cur = .legal i ∧ emitEdge (schedOf i s) s = .next u)) := by
  cases hf : commandFreeEdge s with
  | some u =>
    rw [step_of_commandFree hf] at h
    cases h
    refine ⟨u, rfl, ?_⟩
    rcases commandFreeEdge_cases hf with h | h | h | h
    · exact .inl h
    · exact .inr (.inl h)
    · exact .inr (.inr (.inl h))
    · exact .inr (.inr (.inr (.inl h)))
  | none =>
    obtain ⟨hr, hp⟩ := commandFreeEdge_none_iff.mp hf
    cases hd : decode s.cur with
    | legal i =>
      rw [step_of_legal hf hd, advanceResult_next_iff] at h
      obtain ⟨u, hu, rfl⟩ := h
      refine ⟨u, rfl, ?_⟩
      rcases exec_next_cases hu with ⟨he, rfl⟩ | ⟨he, hu⟩
      · have hw : s.now.execWait = false := by
          rcases hp with ⟨-, hw⟩ | hp
          · exact hw
          · rw [he] at hp; cases hp
        exact .inr (.inr (.inr (.inr (.inl ⟨hr, he, hw, .inl ⟨i, rfl, rfl⟩⟩))))
      · exact .inr (.inr (.inr (.inr (.inr ⟨hr, he, i, rfl, hu⟩))))
    | illegal why =>
      rw [step_of_illegal hf hd, advanceResult_next_iff] at h
      obtain ⟨u, hu, rfl⟩ := h
      obtain ⟨he, rfl⟩ := runIllegal_next_iff.mp hu
      refine ⟨_, rfl, ?_⟩
      have hw : s.now.execWait = false := by
        rcases hp with ⟨-, hw⟩ | hp
        · exact hw
        · rw [he] at hp; cases hp
      exact .inr (.inr (.inr (.inr (.inl ⟨hr, he, hw, .inr ⟨why, rfl, rfl⟩⟩))))

/-! ### The two views that a host's read chooses from (R135) -/

/-- In EXEC the new values are those that the command in CUR leaves. -/
theorem execOutcome_of_legal {s : State} {i : Instr} (hp : s.phase = .exec)
    (hd : decode s.cur = .legal i) : s.execOutcome = execEnd i s := by
  unfold State.execOutcome
  simp only [fetch]
  rw [hd]
  dsimp only
  rw [exec_exec i hp]
  rfl

/-- In EXEC an illegal word's new values are those of the raised error. -/
theorem execOutcome_of_illegal {s : State} {why : Illegal} (hp : s.phase = .exec)
    (hd : decode s.cur = .illegal why) :
    s.execOutcome = raiseError (illegalCommandErr why s.cur) s := by
  unfold State.execOutcome
  simp only [fetch]
  rw [hd]
  dsimp only
  rw [runIllegal_next_iff.mpr ⟨hp, rfl⟩]
  rfl

theorem newView_exec {s : State} (hp : s.phase = .exec) : s.newView = s.execOutcome := by
  unfold State.newView; rw [hp]

theorem oldView_exec {s : State} (hp : s.phase = .exec) : s.oldView = s := by
  unfold State.oldView; rw [hp]

theorem newView_emit {s : State} (hp : s.phase = .emit) : s.newView = s := by
  unfold State.newView; rw [hp]

theorem oldView_emit {s : State} (hp : s.phase = .emit) :
    s.oldView = { s with frame := s.oldFrame, fvalid := s.oldFvalid } := by
  unfold State.oldView; rw [hp]

/-- While `rst` is 1 the three register ports and the host's reads show the reset values (R29). -/
theorem shown_of_reset {s : State} (hr : s.now.rst = true) : s.shown = resetEdge s := by
  unfold State.shown; rw [hr]; rfl

theorem shown_of_no_reset {s : State} (hr : s.now.rst = false) : s.shown = s := by
  unfold State.shown; rw [hr]; rfl

theorem readView_of_reset {s : State} (hr : s.now.rst = true) : s.readView = resetEdge s := by
  unfold State.readView; rw [hr]; exact shown_of_reset hr

/-- Outside reset the reads are all from the old or all from the new registers (R41). -/
theorem readView_of_no_reset {s : State} (hr : s.now.rst = false) :
    s.readView = if s.seesNew then s.newView else s.oldView := by
  unfold State.readView; rw [hr]; rfl

/-- An idle block's reads are from its registers (R43). -/
theorem readView_idle {s : State} (hr : s.now.rst = false) (hp : s.phase = .idle) : s.readView = s := by
  rw [readView_of_no_reset hr]
  unfold State.newView State.oldView
  rw [hp]
  cases s.seesNew <;> rfl

end Sys2Proof.Machine
end

