-- ==== Sys2Proof/Tests/Slice0.lean ====
section
/-! SUPPORT. Own tests. Expected values come from the spec's vectors (95_test_vectors.md) and rules, never from a run.
First the checks of WellFormed and of decoding, then one step of each command, then for every obligation that has
hypotheses a witness that they can be met together, clause by clause at the ends of the ranges. -/

namespace Sys2Proof.Tests

open Sys2Proof Sys2Proof.Machine

set_option Elab.async false

/-! ### WellFormed: the ill-formed terms are refused (R46, R55) -/

theorem test_wf_refuses_emits_6 : (Instr.emits 6).wf = false := by decide
theorem test_wf_refuses_emits_7 : (Instr.emits 7).wf = false := by decide
theorem test_wf_admits_emits_5 : (Instr.emits 5).wf = true := by decide
theorem test_wf_admits_emitb_ff : (Instr.emitb 0xFF).wf = true := by decide

/-! ### Decoding: words written bit by bit from the encoding column of R47 -/

theorem test_decode_nop : decode 0b0000_0000_00000000#16 = .legal .nop := by decide
theorem test_decode_enc_mode : decode 0b0001_0000_00000000#16 = .legal .encMode := by decide
theorem test_decode_enc_tmr : decode 0b0010_0000_00000000#16 = .legal .encTmr := by decide
theorem test_decode_enc_pwr : decode 0b0011_0000_00000000#16 = .legal .encPwr := by decide
theorem test_decode_enc_fan : decode 0b0100_0000_00000000#16 = .legal .encFan := by decide
theorem test_decode_enc_swg : decode 0b0101_0000_00000000#16 = .legal .encSwg := by decide
theorem test_decode_enc_temp : decode 0b0110_0000_00000000#16 = .legal .encTemp := by decide
theorem test_decode_enc_dly : decode 0b0111_0000_00000000#16 = .legal .encDly := by decide
theorem test_decode_build : decode 0b1000_0000_00000000#16 = .legal .build := by decide
theorem test_decode_emitb : decode 0b1001_0000_11110001#16 = .legal (.emitb 0xF1) := by decide
theorem test_decode_emits : decode 0b1010_0000_00000101#16 = .legal (.emits 5) := by decide
theorem test_decode_render : decode 0b1011_0000_00000000#16 = .legal .render := by decide

/-- The illegal words of vectors L2-1. -/
theorem test_decode_illegal :
    decode 0x0001 = .illegal .badOperand ∧ decode 0x00FF = .illegal .badOperand ∧
    decode 0x0100 = .illegal .reservedBits ∧ decode 0x1001 = .illegal .badOperand ∧
    decode 0x8100 = .illegal .reservedBits ∧ decode 0x9100 = .illegal .reservedBits ∧
    decode 0xA006 = .illegal .badOperand ∧ decode 0xA007 = .illegal .badOperand ∧
    decode 0xA008 = .illegal .badOperand ∧ decode 0xA0FF = .illegal .badOperand ∧
    decode 0xAF00 = .illegal .reservedBits ∧ decode 0xB001 = .illegal .badOperand ∧
    decode 0xC000 = .illegal .reservedOpcode ∧ decode 0xC1FF = .illegal .reservedOpcode ∧
    decode 0xF000 = .illegal .reservedOpcode ∧ decode 0xFFFF = .illegal .reservedOpcode := by
  decide

/-- The error values of vectors L2-1. -/
theorem test_illegal_values :
    illegalValue .badOperand 0xA0FF = 0xFF ∧ illegalValue .reservedBits 0xAF00 = 0xAF ∧
    illegalValue .reservedOpcode 0xC1FF = 0xC1 := by decide

/-! ### States for the tests -/

/-- The state of a next outcome. -/
def nextOf : Result → Option State
  | .next t => some t
  | .fault _ => none
  | .refused _ => none

/-- The example Settings of vectors L1-8, with another delay pattern: on, 0, on, 25, cool. -/
def settings (delay : Nat) : Settings := ⟨0b01, 0, 0b01, 25, 0b00, delay⟩

/-- A command in EXEC, as acceptance from the reset state leaves it. -/
def execState (w : CmdWord) (p : Settings) : State :=
  { State.reset with phase := .exec, cur := w, set := p }

/-- A command in EMIT. -/
def emitState (w : CmdWord) (i : BitVec 9) (offer ready : Bool) : State :=
  { State.reset with
    phase := .emit, cur := w, seqIdx := i, offer := offer
    now := { ClockCycle.quiet with symReady := ready } }

/-- The frame of vectors L1-8. -/
def builtFrame : List Byte :=
  [0x11, 0xDA, 0x27, 0x00, 0x00, 0x39, 0x32, 0x00, 0xBF, 0x00, 0x00, 0x06, 0x60, 0x00, 0x00, 0xC1, 0x63]

/-- `render` in EMIT with that frame. -/
def renderState (i : BitVec 9) (offer ready : Bool) : State :=
  { emitState 0xB000 i offer ready with
    set := settings 0, frame := Memory.writeBytes [] 0 builtFrame, fvalid := true }

/-- An idle block at whose ports a command waits. -/
def offeredState (w : CmdWord) (p : Settings) : State :=
  { State.reset with now := { ClockCycle.quiet with cmdValid := true, cmdWord := w, settings := p } }

/-- A block in its reset cycle, with a command at the ports in the cycle after it. -/
def resetState (s : State) : State :=
  { s with
    now := { ClockCycle.quiet with rst := true }
    later := [{ ClockCycle.quiet with cmdValid := true, cmdWord := 0xB000 }] }

/-- The invariant as a check. -/
def invCheck (s : State) : Bool :=
  decide (Config.leastDelayW ≤ s.pDelayW) && decide (s.set.delay < 2 ^ s.pDelayW) && Memory.wf s.frame
    && errValueFits s.errKind s.errValue && (!s.busy || (!s.done && s.errKind == .none)) && seqFits s
    && (!s.fvalid || isCommandFrame (frameBytes s.frame)) && renderFits s && s.sink.all SymOut.fits
    && Memory.wf s.oldFrame
    && (!s.busy || emitsRender s || (s.oldFrame == s.frame && s.oldFvalid == s.fvalid))

theorem inv_of_invCheck {s : State} (h : invCheck s = true) : s.Inv := by
  simp only [invCheck, Bool.and_eq_true, decide_eq_true_eq, Bool.or_eq_true, Bool.not_eq_true',
    beq_iff_eq] at h
  obtain ⟨⟨⟨⟨⟨⟨⟨⟨⟨⟨h1, h2⟩, h3⟩, h4⟩, h5⟩, h6⟩, h7⟩, h8⟩, h9⟩, h10⟩, h11⟩ := h
  refine ⟨h1, h2, h3, h4, fun hb => ?_, h6, fun hf => ?_, h8, h10, fun hb he => ?_, h9⟩
  · rcases h5 with h5 | h5
    · rw [hb] at h5; cases h5
    · exact h5
  · rcases h7 with h7 | h7
    · rw [hf] at h7; cases h7
    · exact h7
  · rcases h11 with (h11 | h11) | h11
    · rw [hb] at h11; cases h11
    · rw [he] at h11; cases h11
    · exact h11

/-! ### One step of each command -/

/-- RES and STATUS after one step. -/
def resStatus (s : State) : Option (ResWord × StatusWord) := (nextOf (step s)).map fun t => (t.res, t.status)

/-- Vectors L2-2. -/
theorem test_nop : resStatus (execState 0x0000 (settings 0)) = some (0x000000, 0x0002) := by decide +kernel

/-- Vectors L2-3: heat; code 3. -/
theorem test_enc_mode_heat :
    resStatus (execState 0x1000 { settings 0 with mode := 1 }) = some (0x000004, 0x0002) := by
  decide +kernel
theorem test_enc_mode_code3 :
    resStatus (execState 0x1000 { settings 0 with mode := 3 }) = some (0x000000, 0x0312) := by
  decide +kernel

/-- Vectors L2-3: delay -32768 and 32767. -/
theorem test_enc_tmr_off : resStatus (execState 0x2000 (settings 0x8000)) = some (0x000002, 0x0002) := by
  decide +kernel
theorem test_enc_tmr_on : resStatus (execState 0x2000 (settings 0x7FFF)) = some (0x000001, 0x0002) := by
  decide +kernel

/-- Vectors L2-3: on; code 2. -/
theorem test_enc_pwr_on : resStatus (execState 0x3000 (settings 0)) = some (0x000001, 0x0002) := by
  decide +kernel
theorem test_enc_pwr_code2 :
    resStatus (execState 0x3000 { settings 0 with power := 2 }) = some (0x000000, 0x0222) := by
  decide +kernel

/-- Vectors L2-3: fan 5; fan -1. -/
theorem test_enc_fan_5 :
    resStatus (execState 0x4000 { settings 0 with fan := 5 }) = some (0x000007, 0x0002) := by
  decide +kernel
theorem test_enc_fan_negative :
    resStatus (execState 0x4000 { settings 0 with fan := 0xFF }) = some (0x000000, 0xFF32) := by
  decide +kernel

/-- Rule R70: on is `1111`; vectors L1-7: code 2. -/
theorem test_enc_swg_on : resStatus (execState 0x5000 (settings 0)) = some (0x00000F, 0x0002) := by
  decide +kernel
theorem test_enc_swg_code2 :
    resStatus (execState 0x5000 { settings 0 with swing := 2 }) = some (0x000000, 0x0242) := by
  decide +kernel

/-- Vectors L1-3 and L1-7: 30 gives 0x3C; 31 fails. -/
theorem test_enc_temp_30 :
    resStatus (execState 0x6000 { settings 0 with temp := 30 }) = some (0x00003C, 0x0002) := by
  decide +kernel
theorem test_enc_temp_31 :
    resStatus (execState 0x6000 { settings 0 with temp := 31 }) = some (0x000000, 0x1F52) := by
  decide +kernel

/-- Vectors L1-5: delay -2 and 2. -/
theorem test_enc_dly_off : resStatus (execState 0x7000 (settings 0xFFFE)) = some (0x078600, 0x0002) := by
  decide +kernel
theorem test_enc_dly_on : resStatus (execState 0x7000 (settings 2)) = some (0x600078, 0x0002) := by
  decide +kernel

/-- Vectors L1-8, with the correction of C1. -/
theorem test_build_frame :
    (nextOf (step (execState 0x8000 (settings 0)))).map (fun t => (frameBytes t.frame, t.status)) =
      some (builtFrame, 0x0006) := by decide +kernel
/-- Vectors L1-7: fan 6. -/
theorem test_build_error :
    (nextOf (step (execState 0x8000 { settings 0 with fan := 6 }))).map
      (fun t => (t.frame, t.status)) = some ([], 0x0632) := by decide +kernel

/-- Rules R100, R108: bit 7 of 0x80 is the last symbol, a ONE with `sym_last`. -/
theorem test_emitb_last :
    (nextOf (step (emitState 0x9080 7 true true))).map (fun t => (t.sink, t.status)) =
      some ([⟨1, 0x00120031, true⟩], 0x0002) := by decide +kernel
/-- Bit 0 of 0x80 is 0: a ZERO, not the last. -/
theorem test_emitb_first :
    (nextOf (step (emitState 0x9080 0 true true))).map (fun t => (t.sink, t.seqIdx)) =
      some ([⟨0, 0x00120012, false⟩], 1) := by decide +kernel

/-- Vectors L1-10: STOP3. -/
theorem test_emits_stop3 :
    (nextOf (step (emitState 0xA005 0 true true))).map (fun t => (t.sink, t.status)) =
      some ([⟨5, 0x00121E0D, true⟩], 0x0002) := by decide +kernel
/-- Rule R106: a sink that is not ready takes nothing. -/
theorem test_emits_holds :
    (nextOf (step (emitState 0xA005 0 true false))).map (fun t => (t.sink, t.offer, t.phase)) =
      some ([], true, .emit) := by decide +kernel

/-- Rule R110: the frame is in place when EXEC ends, and the first offer is ZERO. -/
theorem test_render_starts :
    (nextOf (step (execState 0xB000 (settings 0)))).map
      (fun t => (frameBytes t.frame, t.fvalid, t.phase, t.outputs.symCode)) =
      some (builtFrame, true, .emit, 0) := by decide +kernel
/-- Rule R101: symbol 5 is STOP1. -/
theorem test_render_stop1 :
    (nextOf (step (renderState 5 true true))).map (·.sink) = some [⟨3, 0x001203C1, false⟩] := by
  decide +kernel

/-- Vectors L2-2: the word 0001 after a build keeps FVALID; STATUS 0x0166. -/
theorem test_illegal_word :
    resStatus { execState 0x0001 (settings 0) with fvalid := true } = some (0x000000, 0x0166) := by
  decide +kernel

/-- Rule R112, vectors L1-10: the text of STOP1. -/
theorem test_text_stop1 : symText ⟨3, 0x001203C1, false⟩ = "0x00,0x12,0x03,0xc1,".toList := by
  decide +kernel

/-- Rule R57: `.set` of raw code 2 and of a negative delay. -/
theorem test_assemble_set :
    assembleLine 16 ".set mode=#2, delay=-2".toList =
      some (.set { SettingsChange.none with mode := some 2, delay := some 0xFFFE }) := by decide +kernel

/-- Rule R56: comments, hex and a bad operand. -/
theorem test_assemble_commands :
    assembleLine 16 "emitb 0xa5 ; a byte".toList = some (.command (.emitb 0xA5)) ∧
    assembleLine 16 "; nothing".toList = some .blank ∧
    assembleLine 16 "emits 6".toList = none := by decide +kernel

/-- Rule R56: a listing line. -/
theorem test_listing : listingLine (.emitb 0xA5) = "90A5  emitb 0xA5".toList := by decide +kernel

/-! ### Witnesses: encoding -/

theorem witness_DecodeInvertsEncode :
    (Instr.emits 0).wf = true ∧ (Instr.emits 5).wf = true ∧ (Instr.emitb 0x00).wf = true ∧
    (Instr.emitb 0xFF).wf = true ∧ Instr.nop.wf = true ∧ Instr.render.wf = true := by decide

theorem witness_EncodeInvertsDecode :
    decode 0xA005#16 = .legal (.emits 5) ∧ decode 0x90FF#16 = .legal (.emitb 0xFF) := by decide

/-- One input for each clause, at the ends of the ranges. -/
theorem witness_EveryWordHasOneVerdict :
    let w (op rsv opnd : Nat) : CmdWord := BitVec.ofNat 16 (op * 4096 + rsv * 256 + opnd)
    decode (w 12 0 0) = .illegal .reservedOpcode ∧ decode (w 15 15 255) = .illegal .reservedOpcode ∧
    decode (w 11 1 0) = .illegal .reservedBits ∧ decode (w 0 15 255) = .illegal .reservedBits ∧
    decode (w 9 0 0) = .legal (.emitb 0x00) ∧ decode (w 9 0 255) = .legal (.emitb 0xFF) ∧
    decode (w 10 0 0) = .legal (.emits 0) ∧ decode (w 10 0 5) = .legal (.emits 5) ∧
    decode (w 10 0 6) = .illegal .badOperand ∧ decode (w 10 0 255) = .illegal .badOperand ∧
    decode (w 8 0 1) = .illegal .badOperand ∧ decode (w 11 0 255) = .illegal .badOperand ∧
    decode (w 0 0 0) = .legal .nop ∧ decode (w 8 0 0) = .legal .build ∧
    decode (w 11 0 0) = .legal .render := by decide +kernel

/-! ### Witnesses: the step, the ports, reset -/

theorem witness_StepRunsTheCommandInCur :
    (let s := execState 0x4000 (settings 0)
     s.now.rst = false ∧ s.phase = .exec ∧ s.now.execWait = false ∧ decode s.cur = .legal .encFan) ∧
    (let s := renderState 275 true true
     s.now.rst = false ∧ s.phase = .emit ∧ decode s.cur = .legal .render) := by decide

theorem witness_IssuedWordRunsAtTheNextStep :
    decodeTableWord 16 0xB000 = some .render ∧ decodeTableWord 16 0x90FF = some (.emitb 0xFF) := by decide

theorem witness_CommandReadyAndAcceptance :
    State.reset.phase = .idle ∧ State.reset.outputs.cmdReady = true ∧
    (offeredState 0xB000 (settings 0)).now.cmdValid = true := by decide

theorem witness_AcceptanceLoadsTheCommand :
    let s := offeredState 0xB000 (settings 0xFFFF)
    s.now.rst = false ∧ s.now.cmdValid = true ∧ s.outputs.cmdReady = true ∧
    s.now.settings.delay < 2 ^ s.pDelayW := by decide

theorem witness_PortsAreSampledOnlyAtAcceptance :
    (execState 0xB000 (settings 0)).outputs.cmdReady = false ∧
    (resetState State.reset).outputs.cmdReady = false ∧ State.reset.now.cmdValid = false := by decide

/-- An idle block; and a command whose new STATUS, 0x0006, is read before the edge that completes it. -/
theorem witness_OutcomeHoldsUntilTheNextAcceptance :
    (State.reset.busy = false ∧ State.reset.now.rst = false ∧
      ¬(State.reset.now.cmdValid = true ∧ State.reset.outputs.cmdReady = true)) ∧
    (let s := { execState 0x8000 (settings 0) with seesNew := true }
     (nextOf (step s)).map (·.now.rst) = some false ∧ s.now.rst = false ∧
     ¬(s.now.cmdValid = true ∧ s.outputs.cmdReady = true) ∧
     s.hostRead.status.getLsbD 0 = false ∧ s.hostRead.status.getLsbD 1 = true) := by decide +kernel

theorem witness_ExecLastsWhileItsLatencyRuns :
    let s := { execState 0x7000 (settings 0) with now := { ClockCycle.quiet with execWait := true } }
    s.phase = .exec ∧ s.now.rst = false ∧ s.now.execWait = true := by decide

/-- Reset of an idle block, and in the middle of a render; a command waits in the next cycle. -/
theorem witness_ResetEdgeWinsFromEveryState :
    (resetState State.reset).now.rst = true ∧ (resetState (renderState 138 true true)).now.rst = true ∧
    (nextOf (step (resetState (renderState 138 true true)))).map
      (fun t => (t.now.rst, t.now.cmdValid)) = some (false, true) := by decide +kernel

/-- Acceptance; completion; both sides busy; both sides idle. -/
theorem witness_BusyAndDoneFollowTheLifecycle :
    let f (s : State) := (nextOf (step s)).map fun t => (s.now.rst, s.busy, t.busy)
    f (offeredState 0x0000 (settings 0)) = some (false, false, true) ∧
    f (execState 0x0000 (settings 0)) = some (false, true, false) ∧
    f (execState 0xB000 (settings 0)) = some (false, true, true) ∧
    f State.reset = some (false, false, false) := by decide +kernel

/-- Indices 16 and 17, 31. -/
theorem witness_FrameReadPort :
    let at' (a : BitVec 5) := { State.reset with now := { ClockCycle.quiet with frameAddr := a } }
    (at' 16).now.rst = false ∧ (at' 16).now.frameAddr.toNat ≤ 16 ∧ 17 ≤ (at' 17).now.frameAddr.toNat ∧
    17 ≤ (at' 31).now.frameAddr.toNat ∧ (at' 16).frame = State.reset.frame := by decide

/-! ### Witnesses: nop and the field encoders -/

theorem witness_NopCompletesWithNoEffect : (execState 0x0000 (settings 0)).phase = .exec := by decide

theorem witness_EncModeGivesTheModePattern :
    let s (m : SettingCode) := execState 0x1000 { settings 0 with mode := m }
    (∀ m, (s m).phase = .exec) ∧ (s 0).set.mode = 0b00#2 ∧ (s 1).set.mode = 0b01#2 ∧
    (s 2).set.mode = 0b10#2 ∧ (s 3).set.mode = 0b11#2 := by decide

/-- Delay 0, the least and the greatest positive, -1, and the least value at the widths 16 and 2. -/
theorem witness_EncTmrGivesTheTimerMode :
    let s (d : Nat) := execState 0x2000 (settings d)
    (s 0).phase = .exec ∧ (s 0).delay = 0 ∧ 0 < (s 1).delay ∧ 0 < (s 0x7FFF).delay ∧
    (s 0xFFFF).delay < 0 ∧ (nextOf (exec .encTmr (s 0xFFFF))).isSome = true ∧
    2 ≤ (s 0x8000).pDelayW ∧ (s 0x8000).set.delay = 2 ^ ((s 0x8000).pDelayW - 1) ∧
    (let r := { s 2 with pDelayW := 2 }
     r.phase = .exec ∧ 2 ≤ r.pDelayW ∧ r.set.delay = 2 ^ (r.pDelayW - 1)) := by decide +kernel

theorem witness_EncPwrGivesThePowerBit :
    let s (m : SettingCode) := execState 0x3000 { settings 0 with power := m }
    (∀ m, (s m).phase = .exec) ∧ (s 0).set.power = 0b00#2 ∧ (s 1).set.power = 0b01#2 ∧
    (s 2).set.power = 0b10#2 ∧ (s 3).set.power = 0b11#2 := by decide

/-- Fan 0, 1, 5, -1, 6, -128, 127. -/
theorem witness_EncFanGivesTheFanPattern :
    let s (f : Byte) := execState 0x4000 { settings 0 with fan := f }
    (s 0).phase = .exec ∧ (s 0).set.fan.toInt = 0 ∧ 1 ≤ (s 1).set.fan.toInt ∧
    (s 5).set.fan.toInt ≤ 5 ∧ (s 0xFF).set.fan.toInt < 0 ∧ 5 < (s 6).set.fan.toInt ∧
    (s 0x80).set.fan.toInt < 0 ∧ 5 < (s 0x7F).set.fan.toInt := by decide +kernel

theorem witness_EncSwgGivesTheSwingPattern :
    let s (m : SettingCode) := execState 0x5000 { settings 0 with swing := m }
    (∀ m, (s m).phase = .exec) ∧ (s 0).set.swing = 0b00#2 ∧ (s 1).set.swing = 0b01#2 ∧
    (s 2).set.swing = 0b10#2 ∧ (s 3).set.swing = 0b11#2 := by decide

/-- Temperatures 18, 30, 17, 31, -128. -/
theorem witness_EncTempGivesTwiceTheTemperature :
    let s (c : Byte) := execState 0x6000 { settings 0 with temp := c }
    (s 18).phase = .exec ∧ 18 ≤ (s 18).set.temp.toInt ∧ (s 30).set.temp.toInt ≤ 30 ∧
    (s 17).set.temp.toInt < 18 ∧ 30 < (s 31).set.temp.toInt ∧ (s 0x80).set.temp.toInt < 18 := by
  decide +kernel

/-- Delays 0, 1, -5 (300 minutes) and -4 (240 minutes): one for each branch, -5 and -4 where two branches meet. -/
theorem witness_DelayBytesByBranch :
    (0 : Int) < 1 ∧ ((-5 : Int) < 0 ∧ 255 < (-5 : Int).natAbs * 60) ∧
    ((-4 : Int) < 0 ∧ (-4 : Int).natAbs * 60 ≤ 255) ∧ ((-1 : Int) < 0 ∧ (-1 : Int).natAbs * 60 ≤ 255) := by
  decide

theorem witness_SmallOffTimerIsOneToFourHours :
    minutes (-4) ≤ 255 ∧ (-4 : Int) ≤ -4 ∧ (-1 : Int) ≤ -1 ∧ (-5 : Int) ≤ -5 := by decide

theorem witness_EncDlyGivesTheDelayBytes :
    let s (d : Int) := execState 0x7000 (settings (BitVec.ofInt 16 d).toNat)
    (s 2).phase = .exec ∧ (s 2).delay = 2 ∧ (s (-4)).delay = -4 ∧ (s (-5)).delay = -5 ∧
    (s (-1093)).delay = -1093 ∧ (s 1093).delay = 1093 := by decide +kernel

/-- Every `enc.*` command answers a next state in EXEC, with valid fields and with invalid ones. -/
theorem witness_EncCommandsFrame :
    ∀ i ∈ encCommands, (nextOf (exec i (execState (encode i) (settings 0)))).isSome = true ∧
      (nextOf (exec i (execState (encode i) ⟨3, 6, 3, 31, 3, 1⟩))).isSome = true := by decide +kernel

/-! ### Witnesses: the Frame Builder -/

theorem witness_BuiltFrameLayout : buildCommand (settings 0) 0 = .ok builtFrame := by decide +kernel

/-- Cool gives byte 5 = 0x39, heat gives 0x49. -/
theorem witness_PackedByteValues :
    (settings 0).mode = 0b00#2 ∧ buildCommand (settings 0) 0 = .ok builtFrame ∧
    (buildCommand { settings 0 with mode := 1 } 0).toOption.map (fun F => F.getD 5 0) = some 0x49 := by
  decide +kernel

theorem witness_FrameChecksumClosedForm : buildCommand (settings 0) 0 = .ok builtFrame := by decide +kernel

theorem witness_BuildSucceedsExactlyOnValidSettings :
    (∃ F, buildCommand (settings 0) 0 = .ok F) ∧
    (∃ F, buildCommand ⟨0, 5, 0, 18, 1, 0⟩ 0 = .ok F) ∧ (∃ F, buildCommand ⟨0, 5, 0, 30, 1, 0⟩ 0 = .ok F) :=
  ⟨⟨_, witness_BuiltFrameLayout⟩, ⟨_, rfl⟩, ⟨_, rfl⟩⟩

/-- One Settings value for each place in the order where the first error can stand, the later fields invalid too. -/
theorem witness_FirstErrorInTheFixedOrder :
    encodeMode 2 = .error ⟨.invalidMode, 2⟩ ∧
    (encodeMode 1 = .ok 4 ∧ encodePower 3 = .error ⟨.invalidPower, 3⟩) ∧
    (encodePower 1 = .ok 1 ∧ encodeTemperature 31 = .error ⟨.invalidTemperature, 31⟩) ∧
    (encodeTemperature 18 = .ok 36 ∧ encodeFan 6 = .error ⟨.invalidFan, 6⟩) ∧
    (encodeFan 5 = .ok 7 ∧ encodeSwing 2 = .error ⟨.invalidSwing, 2⟩) ∧
    (let s := execState 0x8000 ⟨3, 6, 3, 31, 2, 0⟩
     s.phase = .exec ∧ s.errKind = .none ∧ (nextOf (exec .encMode s)).isSome = true ∧
     (nextOf (exec .encPwr s)).isSome = true ∧ (nextOf (exec .encTemp s)).isSome = true ∧
     (nextOf (exec .encFan s)).isSome = true ∧ (nextOf (exec .encSwg s)).isSome = true) ∧
    (let s := execState 0xC000 (settings 0)
     s.phase = .exec ∧ s.now.rst = false ∧ s.now.execWait = false ∧
     decode s.cur = .illegal .reservedOpcode) := by decide +kernel

theorem witness_BuildStoresTheFrameOrReportsTheError :
    (let s := execState 0x8000 (settings 0)
     s.phase = .exec ∧ buildCommand s.set s.delay = .ok builtFrame ∧
     (nextOf (exec .build { s with frame := Memory.writeBytes [] 0 builtFrame })).isSome = true) ∧
    (let s := execState 0x8000 { settings 0 with fan := 6 }
     s.phase = .exec ∧ buildCommand s.set s.delay = .error ⟨.invalidFan, 6⟩) := by decide +kernel

theorem witness_BuildAndRenderFrame :
    (nextOf (exec .build (execState 0x8000 (settings 0)))).isSome = true ∧
    (nextOf (exec .render (execState 0xB000 (settings 0)))).isSome = true ∧
    (nextOf (exec .render (renderState 275 true true))).isSome = true := by decide +kernel

/-! ### Witnesses: the Pulse Encoder -/

theorem witness_RenderHas276Symbols : builtFrame.length = 17 := by decide

theorem witness_RenderSymbolFromItsIndex :
    builtFrame.length = 17 ∧ 275 < 276 ∧ 16 < 17 ∧ 7 < 8 := by decide

/-- In EXEC; in EMIT without an offer, with one that is not taken, with one taken before the end and at the end. -/
theorem witness_EmitbEmitsTheBitsOfItsByte :
    (execState 0x90A5 (settings 0)).phase = .exec ∧
    (let s := emitState 0x90A5 7 false true
     s.phase = .emit ∧ s.seqIdx.toNat < 8 ∧ s.offer = false) ∧
    (let s := emitState 0x90A5 0 true false
     s.phase = .emit ∧ s.offer = true ∧ s.now.symReady = false) ∧
    (let s := emitState 0x90A5 6 true true
     s.offer = true ∧ s.now.symReady = true ∧ s.seqIdx.toNat + 1 < 8) ∧
    (let s := emitState 0x90A5 7 true true
     s.offer = true ∧ s.now.symReady = true ∧ s.seqIdx.toNat + 1 = 8) := by decide

/-- In EXEC; in EMIT without an offer, with one that is not taken, with one that is; the illegal operands 6 and 255. -/
theorem witness_EmitsEmitsItsSymbol :
    (execState 0xA005 (settings 0)).phase = .exec ∧
    (let s := emitState 0xA005 0 false true
     s.phase = .emit ∧ s.seqIdx = 0#9 ∧ s.offer = false) ∧
    (let s := emitState 0xA005 0 true false
     s.phase = .emit ∧ s.offer = true ∧ s.now.symReady = false) ∧
    (let s := emitState 0xA005 0 true true
     s.phase = .emit ∧ s.seqIdx = 0#9 ∧ s.offer = true ∧ s.now.symReady = true) ∧
    (∀ n, (n = 6 ∨ n = 255) → 6 ≤ n ∧ n ≤ 255 ∧
      (let s := execState (BitVec.ofNat 16 (0xA000 + n)) (settings 0)
       s.phase = .exec ∧ s.now.rst = false ∧ s.now.execWait = false ∧
       s.cur = BitVec.ofNat 16 (0xA000 + n))) := by
  refine ⟨by decide, by decide, by decide, by decide, ?_⟩
  rintro n (rfl | rfl) <;> decide

theorem witness_StreamCommandsFrame :
    (nextOf (exec .nop (execState 0x0000 (settings 0)))).isSome = true ∧
    (nextOf (exec (.emitb 0xA5) (emitState 0x90A5 7 true true))).isSome = true ∧
    ((Instr.emits 5).wf = true ∧ (nextOf (exec (.emits 5) (emitState 0xA005 0 true true))).isSome = true) := by
  decide +kernel

/-- In EXEC with valid and with invalid Settings; in EMIT in each case of the loop; indices 0 and 138. -/
theorem witness_RenderBuildsThenEmitsItsSequence :
    (let s := execState 0xB000 (settings 0)
     s.phase = .exec ∧ buildCommand s.set s.delay = .ok builtFrame ∧
     (nextOf (exec .build s)).isSome = true) ∧
    (let s := renderState 0 false true
     s.phase = .emit ∧ s.seqIdx.toNat < 276 ∧ s.offer = false) ∧
    (let s := renderState 139 true false
     s.phase = .emit ∧ s.seqIdx.toNat < 276 ∧ s.offer = true ∧ s.now.symReady = false) ∧
    (let s := renderState 274 true true
     s.offer = true ∧ s.now.symReady = true ∧ s.seqIdx.toNat + 1 < 276) ∧
    (let s := renderState 275 true true
     s.offer = true ∧ s.now.symReady = true ∧ s.seqIdx.toNat + 1 = 276) ∧
    (let s := execState 0xB000 { settings 0 with temp := 17 }
     s.phase = .exec ∧ buildCommand s.set s.delay = .error ⟨.invalidTemperature, 17⟩) := by decide +kernel

theorem witness_inv_render : (renderState 275 true false).Inv := inv_of_invCheck (by decide +kernel)

theorem witness_OfferedSymbolIsStableUntilItsHandshake :
    let s := renderState 275 true false
    s.Inv ∧ s.offer = true ∧ s.now.rst = false ∧ s.now.symReady = false ∧
      (nextOf (step s)).map (·.now.rst) = some false :=
  ⟨witness_inv_render, rfl, rfl, rfl, by decide +kernel⟩

/-- A handshake on the last symbol, one before it, and an edge without a handshake. -/
theorem witness_SymbolsPassOnlyAtHandshakes :
    (let s := renderState 275 true true
     s.Inv ∧ s.outputs.symValid = true ∧ s.now.symReady = true ∧ s.outputs.symLast = true ∧
       (nextOf (step s)).isSome = true) ∧
    (let s := renderState 274 true true
     s.Inv ∧ s.outputs.symValid = true ∧ s.now.symReady = true ∧ s.outputs.symLast = false ∧
       (nextOf (step s)).isSome = true) ∧
    (let s := renderState 275 true false
     s.Inv ∧ ¬(s.outputs.symValid = true ∧ s.now.symReady = true) ∧ (nextOf (step s)).isSome = true) := by
  refine ⟨⟨inv_of_invCheck ?_, ?_⟩, ⟨inv_of_invCheck ?_, ?_⟩, ⟨witness_inv_render, ?_⟩⟩ <;> decide +kernel

/-- The last index and another one, for each emitting command. -/
theorem witness_SymLastMarksTheLastSymbolOnly :
    (∀ i : BitVec 9, i = 7 ∨ i = 6 →
      (emitState 0x90FF i true true).Inv ∧ (emitState 0x90FF i true true).offer = true) ∧
    (emitState 0xA005 0 true true).Inv ∧
    (renderState 275 true true).Inv ∧ (renderState 274 true true).Inv ∧
    (renderState 275 false true).offer = false := by
  refine ⟨?_, inv_of_invCheck ?_, inv_of_invCheck ?_, inv_of_invCheck ?_, rfl⟩
  · rintro i (rfl | rfl) <;> exact ⟨inv_of_invCheck (by decide +kernel), rfl⟩
  all_goals decide +kernel

/-- A cycle in which the sink takes nothing. -/
def deafCycle : ClockCycle := { ClockCycle.quiet with symReady := false }

/-- A render whose sink never takes a symbol again. -/
def deafState : State := { renderState 275 true false with rest := deafCycle }

/-- Every cycle of that state is one in which the sink takes nothing. -/
theorem deafState_cycleAt (k : Nat) : deafState.cycleAt k = deafCycle := by
  cases k <;> simp [deafState, deafCycle, State.cycleAt, renderState, emitState, State.reset, ClockCycle.settled,
    ClockCycle.quiet]

/-- The sink takes nothing in any number of cycles; and the state at which the step stands still. -/
theorem witness_SinkThatNeverAcceptsHoldsTheBlock :
    deafState.Inv ∧ deafState.phase = .emit ∧
    (∀ k, (deafState.cycleAt k).rst = false ∧ (deafState.cycleAt k).symReady = false) ∧
    deafState.offer = true ∧ deafState.later = [] ∧ deafState.now = deafState.rest.settled := by
  refine ⟨inv_of_invCheck (by decide +kernel), rfl, fun k => ?_, rfl, rfl, rfl⟩
  rw [deafState_cycleAt]; exact ⟨rfl, rfl⟩

/-- Rule R137: the block hangs; the step gives the same state again. -/
theorem test_hang : nextOf (step deafState) = some deafState := by decide +kernel

theorem witness_TextOfSymbolsAndOfARender : builtFrame.length = 17 := by decide

theorem witness_HandBuiltRenderGivesTheSameSymbols : Instr.emits 5 ∈ handRender builtFrame := by decide

theorem witness_AssemblerReadsBackEverySourceLine :
    (Instr.emits 5).wf = true ∧ (Instr.emitb 0xFF).wf = true ∧ Instr.encTemp.wf = true := by decide

/-! ### Witnesses: errors and the whole machine -/

/-- One word for each reason, at the ends of their ranges. -/
theorem witness_IllegalWordRaisesIllegalCommand :
    let s (w : CmdWord) := execState w (settings 0)
    (s 0xC000).phase = .exec ∧ (s 0xC000).now.rst = false ∧ (s 0xC000).now.execWait = false ∧
    decode (s 0xC000).cur = .illegal .reservedOpcode ∧ decode (s 0xFFFF).cur = .illegal .reservedOpcode ∧
    decode (s 0x0100).cur = .illegal .reservedBits ∧ decode (s 0xBF00).cur = .illegal .reservedBits ∧
    decode (s 0x0001).cur = .illegal .badOperand ∧ decode (s 0xA006).cur = .illegal .badOperand := by decide

theorem witness_OnlyAcceptanceWritesSetAndCur :
    (let s := offeredState 0xB000 (settings 0)
     s.now.rst = false ∧ s.phase = .idle ∧ s.now.cmdValid = true ∧ (nextOf (step s)).isSome = true) ∧
    (State.reset.now.rst = false ∧ State.reset.now.cmdValid = false ∧
      (nextOf (step State.reset)).isSome = true) := by decide +kernel

theorem witness_OnlySuccessfulEncCommandsWriteRes :
    let s := execState 0x7000 (settings 2)
    s.Inv ∧ s.now.rst = false ∧ (nextOf (step s)).map (fun t => decide (t.res ≠ s.res)) = some true :=
  ⟨inv_of_invCheck (by decide +kernel), rfl, by decide +kernel⟩

/-- `build` that succeeds, `render` that fails, and an edge that writes no frame. -/
theorem witness_OnlyBuildAndRenderWriteTheFrame :
    let f (s : State) := (nextOf (step s)).map fun t => (s.now.rst, t.fvalid, decide (t.frame = s.frame))
    f (execState 0x8000 (settings 0)) = some (false, true, false) ∧
    f { execState 0xB000 { settings 0 with temp := 31 } with fvalid := true } = some (false, false, true) ∧
    f (execState 0x0000 (settings 0)) = some (false, false, true) := by decide +kernel

/-- Acceptance after an error; an idle edge; completion without an error and with one. -/
theorem witness_ErrorFieldsFollowTheLastCommand :
    (let s := { offeredState 0x0000 (settings 0) with errKind := .invalidFan, errValue := 0x06#8 }
     s.Inv ∧ (nextOf (step s)).map (fun t => (s.now.rst, s.busy, t.busy)) = some (false, false, true)) ∧
    (let s := { State.reset with errKind := .invalidFan, errValue := 0x06#8 }
     s.Inv ∧ (nextOf (step s)).map (fun t => (s.now.rst, s.busy, t.busy)) = some (false, false, false)) ∧
    (let s := execState 0x0000 (settings 0)
     s.Inv ∧ (nextOf (step s)).map (fun t => (s.busy, t.busy, t.errKind)) = some (true, false, .none)) ∧
    (let s := execState 0x4000 { settings 0 with fan := 6 }
     s.Inv ∧ (nextOf (step s)).map (fun t => (s.busy, t.busy, t.errKind)) =
       some (true, false, .invalidFan)) := by
  refine ⟨⟨inv_of_invCheck ?_, ?_⟩, ⟨inv_of_invCheck ?_, ?_⟩, ⟨inv_of_invCheck ?_, ?_⟩,
    ⟨inv_of_invCheck ?_, ?_⟩⟩ <;> decide +kernel

theorem witness_EveryStepKeepsTheInvariant :
    (execState 0xB000 (settings 0)).Inv ∧ (nextOf (step (execState 0xB000 (settings 0)))).isSome = true ∧
    (renderState 274 true true).Inv ∧ (nextOf (step (renderState 274 true true))).isSome = true := by
  refine ⟨inv_of_invCheck ?_, ?_, inv_of_invCheck ?_, ?_⟩ <;> decide +kernel

theorem witness_InvariantStatesNeverStop : (execState 0xFFFF (settings 0)).Inv :=
  inv_of_invCheck (by decide +kernel)

/-- A command that runs for one edge after acceptance. -/
theorem witness_EveryRunOfACommandIsItsTransaction :
    let s := offeredState 0x8000 (settings 0)
    s.phase = .idle ∧ s.now.rst = false ∧ s.now.cmdValid = true ∧
      ((nextOf (step s)).bind (runCommand 1)).map (·.phase) = some .idle := by decide +kernel

theorem witness_UnhinderedCommandCompletes :
    let s := renderState 274 true true
    s.Inv ∧ s.busy = true ∧ ∀ k, (s.cycleAt k).unhindered = true := by
  refine ⟨inv_of_invCheck (by decide +kernel), rfl, fun k => ?_⟩
  cases k <;> rfl

/-! ### Witnesses: the host's reads -/

/-- A state whose reads in this cycle are of the new values, by `b`; the host reads frame byte 16. -/
def readState (b : Bool) (s : State) : State :=
  { s with seesNew := b, now := { s.now with frameAddr := 16#5 } }

/-- Rule R29: in the first cycle with `rst` = 1 of a render the ports and reads show the reset values. -/
theorem test_ports_in_reset_cycle :
    let s := resetState { renderState 138 true true with res := 0x600600 }
    s.outputs.status = 0x0000 ∧ s.outputs.res = 0x000000 ∧ s.hostRead = ⟨0x0000, 0x000000, 0x00⟩ := by
  decide +kernel

/-- Rules R135 and R41: `enc.dly` in EXEC with delay 2, vectors L1-5; the old RES or the new one. -/
theorem test_read_res_race :
    (readState false (execState 0x7000 (settings 2))).hostRead.res = 0x000000 ∧
    (readState true (execState 0x7000 (settings 2))).hostRead.res = 0x600078 := by decide +kernel

/-- Rule R41: `build` in EXEC, STATUS and the checksum byte, all old (0x0001) or all new (0x0006; L1-8: 0x63). -/
theorem test_read_frame_race :
    (readState false (execState 0x8000 (settings 0))).hostRead = ⟨0x0001, 0, 0x00⟩ ∧
    (readState true (execState 0x8000 (settings 0))).hostRead = ⟨0x0006, 0, 0x63⟩ := by decide +kernel

/-- A failing `build` in EXEC (L1-7: fan 6), an illegal word, `render` in EMIT, an idle block. -/
theorem witness_ReadsWhileBusyAreARaceOfOldAndNew :
    (let s := readState true (execState 0x8000 { settings 0 with fan := 6 })
     s.now.rst = false ∧ s.phase = .exec ∧ decode s.cur = .legal .build ∧
     (nextOf (exec .build s)).isSome = true ∧ s.seesNew = true) ∧
    (let s := readState false (execState 0xFFFF (settings 0))
     s.now.rst = false ∧ s.phase = .exec ∧ decode s.cur = .illegal .reservedOpcode ∧
     s.seesNew = false) ∧
    (let s := readState false (renderState 0 true true)
     s.now.rst = false ∧ s.phase = .emit ∧ s.seesNew = false) ∧
    (let s := readState true (renderState 275 true true)
     s.now.rst = false ∧ s.phase = .emit ∧ s.seesNew = true) ∧
    (resetState (renderState 138 true true)).now.rst = true ∧
    (State.reset.now.rst = false ∧ State.reset.phase = .idle) ∧
    (nextOf (step (offeredState 0x8000 (settings 0)))).map (·.busy) = some true ∧
    (nextOf (step (renderState 0 true true))).map (·.busy) = some true := by decide +kernel

end Sys2Proof.Tests
end

/-! # The state of the block (10_state.md): invariant, frames and who writes which register

First what the field encoders and the Frame Builder can answer, then how a command ends its EXEC and what one edge
of EMIT keeps, then the statements of the family. -/

namespace Sys2Proof.Machine

/-! ### The errors that a command can raise (R114, R115) -/

/-- An error that STATUS can report: its kind is not 0 and its value is one of that kind. -/
def Err.Reportable (e : Err) : Prop := e.kind ≠ .none ∧ errValueFits e.kind e.value = true

/-- The raw code of an enumerated setting outside its domain is 2 or 3 (R51 to R53). -/
theorem setWidth_of_invalid_code :
    ∀ c : SettingCode, c ≠ 0b00#2 → c ≠ 0b01#2 → (c.setWidth 8 == 2#8 || c.setWidth 8 == 3#8) = true := by
  decide

theorem encodeMode_error_reportable {mode : SettingCode} {e : Err} (h : encodeMode mode = .error e) :
    e.Reportable := by
  unfold encodeMode at h
  split_ifs at h with h0 h1
  cases h
  exact ⟨nofun, setWidth_of_invalid_code mode h0 h1⟩

theorem encodePower_error_reportable {power : SettingCode} {e : Err} (h : encodePower power = .error e) :
    e.Reportable := by
  unfold encodePower at h
  split_ifs at h with h0 h1
  cases h
  exact ⟨nofun, setWidth_of_invalid_code power h0 h1⟩

theorem encodeSwing_error_reportable {swing : SettingCode} {e : Err} (h : encodeSwing swing = .error e) :
    e.Reportable := by
  unfold encodeSwing at h
  split_ifs at h with h0 h1
  cases h
  exact ⟨nofun, setWidth_of_invalid_code swing h0 h1⟩

theorem encodeFan_error_reportable {fan : Byte} {e : Err} (h : encodeFan fan = .error e) : e.Reportable := by
  unfold encodeFan at h
  split_ifs at h with h0 h1
  cases h
  refine ⟨nofun, ?_⟩
  simp only [errValueFits, Bool.not_eq_true', Bool.and_eq_false_iff, decide_eq_false_iff_not]
  omega

theorem encodeTemperature_error_reportable {temp : Byte} {e : Err} (h : encodeTemperature temp = .error e) :
    e.Reportable := by
  unfold encodeTemperature at h
  split_ifs at h with h0
  cases h
  refine ⟨nofun, ?_⟩
  simp only [errValueFits, Bool.not_eq_true', Bool.and_eq_false_iff, decide_eq_false_iff_not]
  omega

/-- `IllegalCommand` carries any value (R116). -/
theorem illegalCommand_reportable (v : Byte) : Err.Reportable ⟨.illegalCommand, v⟩ := ⟨nofun, rfl⟩

/-- An error of `a` followed by `f` is an error of `a`, or `a` succeeds and the error is one of `f`. -/
theorem except_bind_eq_error_iff {α β : Type} {a : Except Err α} {f : α → Except Err β} {e : Err} :
    (a >>= f) = .error e ↔ a = .error e ∨ ∃ x, a = .ok x ∧ f x = .error e := by
  cases a <;> simp [bind, Except.bind]

/-- An error of `build_command` is that of one of the five field encoders, unmodified (R94, R119). -/
theorem buildCommand_error_cases {S : Settings} {d : Int} {e : Err} (h : buildCommand S d = .error e) :
    encodeMode S.mode = .error e ∨ encodePower S.power = .error e ∨
      encodeTemperature S.temp = .error e ∨ encodeFan S.fan = .error e ∨ encodeSwing S.swing = .error e := by
  unfold buildCommand at h
  rcases except_bind_eq_error_iff.mp h with h | ⟨_, -, h⟩
  · exact .inl h
  rcases except_bind_eq_error_iff.mp h with h | ⟨_, -, h⟩
  · exact .inr (.inl h)
  rcases except_bind_eq_error_iff.mp h with h | ⟨_, -, h⟩
  · exact .inr (.inr (.inl h))
  rcases except_bind_eq_error_iff.mp h with h | ⟨_, -, h⟩
  · exact .inr (.inr (.inr (.inl h)))
  rcases except_bind_eq_error_iff.mp h with h | ⟨_, -, h⟩
  · exact .inr (.inr (.inr (.inr h)))
  · cases h

theorem buildCommand_error_reportable {S : Settings} {d : Int} {e : Err}
    (h : buildCommand S d = .error e) : e.Reportable := by
  rcases buildCommand_error_cases h with h | h | h | h | h
  · exact encodeMode_error_reportable h
  · exact encodePower_error_reportable h
  · exact encodeTemperature_error_reportable h
  · exact encodeFan_error_reportable h
  · exact encodeSwing_error_reportable h

/-! ### A built frame is a command frame (R89 to R92) -/

theorem encodeMode_ok_cases {mode : SettingCode} {p : BitVec 4} (h : encodeMode mode = .ok p) :
    p = 0b0011#4 ∨ p = 0b0100#4 := by
  unfold encodeMode at h
  split_ifs at h
  · cases h; exact .inl rfl
  · cases h; exact .inr rfl

/-- The timer mode is never `11` (R67). -/
theorem encodeTimerMode_ne (d : Int) : encodeTimerMode d ≠ 0b11#2 := by
  unfold encodeTimerMode
  split_ifs <;> decide

theorem encodeSwing_ok_cases {swing : SettingCode} {p : BitVec 4} (h : encodeSwing swing = .ok p) :
    p = 0b0000#4 ∨ p = 0b1111#4 := by
  unfold encodeSwing at h
  split_ifs at h
  · cases h; exact .inl rfl
  · cases h; exact .inr rfl

/-- The fan nibble is `1011` or 3 to 7 (R69, R91). -/
theorem encodeFan_ok_cases {fan : Byte} {p : BitVec 4} (h : encodeFan fan = .ok p) :
    p = 0b1011#4 ∨ (3 ≤ p.toNat ∧ p.toNat ≤ 7) := by
  unfold encodeFan at h
  split_ifs at h with h0 h1
  · cases h; exact .inl rfl
  · cases h
    refine .inr ?_
    rw [BitVec.toNat_ofInt]
    omega

/-- The temperature byte is twice the temperature: even, and 36 to 60 (R71). -/
theorem encodeTemperature_ok_bounds {temp p : Byte} (h : encodeTemperature temp = .ok p) :
    36 ≤ p.toNat ∧ p.toNat ≤ 60 ∧ p.toNat % 2 = 0 := by
  unfold encodeTemperature at h
  split_ifs at h with h0
  cases h
  rw [BitVec.toNat_ofInt]
  omega

theorem byte5Fits_byte5 {mode : BitVec 4} {tmr : BitVec 2} (pwr : BitVec 1)
    (hm : mode = 0b0011#4 ∨ mode = 0b0100#4) (ht : tmr ≠ 0b11#2) : byte5Fits (byte5 mode tmr pwr) = true := by
  rcases hm with rfl | rfl <;> revert tmr pwr <;> decide

theorem byte8Fits_byte8 {fan swg : BitVec 4} (hf : fan = 0b1011#4 ∨ (3 ≤ fan.toNat ∧ fan.toNat ≤ 7))
    (hs : swg = 0b0000#4 ∨ swg = 0b1111#4) : byte8Fits (byte8 fan swg) = true := by
  rcases hs with rfl | rfl <;> revert fan <;> decide

/-- The body of R89 with its checksum is a command frame once its packed bytes are. -/
theorem isCommandFrame_withChecksum {mode : BitVec 4} {tmr : BitVec 2} {pwr : BitVec 1} {temp : Byte}
    {fan swg : BitVec 4} (d : DelayBytes) (h5 : byte5Fits (byte5 mode tmr pwr) = true)
    (h6 : 36 ≤ temp.toNat ∧ temp.toNat ≤ 60 ∧ temp.toNat % 2 = 0)
    (h8 : byte8Fits (byte8 fan swg) = true) :
    isCommandFrame (withChecksum (frameBody mode tmr pwr temp fan swg d)) = true := by
  simp [isCommandFrame, withChecksum, frameBody, frameHeader, frameTrailer, h5, h6, h8]

/-- FVALID may say so: what `build_command` gives is a command frame (R23). -/
theorem buildCommand_isCommandFrame {S : Settings} {d : Int} {F : List Byte}
    (h : buildCommand S d = .ok F) : isCommandFrame F = true := by
  obtain ⟨mode, pwr, temp, fan, swg, hm, -, ht, hf, hs, rfl⟩ := buildCommand_ok_iff.mp h
  exact isCommandFrame_withChecksum _ (byte5Fits_byte5 pwr (encodeMode_ok_cases hm) (encodeTimerMode_ne d))
    (encodeTemperature_ok_bounds ht) (byte8Fits_byte8 (encodeFan_ok_cases hf) (encodeSwing_ok_cases hs))

/-! ### The length of a schedule (R102) -/

theorem renderSeq_length (F : List Byte) : (renderSeq F).length = 140 + 8 * F.length := by
  simp [renderSeq, ff1, ff2]
  omega

@[simp] theorem frameBytes_length (m : Memory) : (frameBytes m).length = Config.frameN := by simp [frameBytes]

/-- No schedule is longer than a render's, so SEQ_IDX does not wrap (R26). -/
theorem schedOf_length_le (i : Instr) (s : State) : (schedOf i s).length ≤ Config.renderN := by
  cases i
  case emitb b => simp [schedOf, Config.renderN]
  case emits c => simp only [schedOf]; cases symOfCode c <;> simp [Config.renderN]
  case render => simp [schedOf, renderSeq_length, Config.frameN, Config.renderN]
  all_goals exact Nat.zero_le _

/-! ### How a command ends its EXEC -/

/-- An `enc.*` command applies the result of its encoder, of which only reportable errors come; `enc.tmr` and
`enc.dly` raise none, and the transaction view has the same result (R81 to R87). -/
theorem execEnd_of_enc {i : Instr} (hi : i ∈ encCommands) (s : State) :
    ∃ (n : Nat) (r : Except Err (BitVec n)), execEnd i s = encEffect r s ∧
      (∀ e, r = .error e → e.Reportable) ∧ (i = .encTmr ∨ i = .encDly → ∃ v, r = .ok v) ∧
      (decode s.cur = .legal i → transact s.cur s.set s.delay s.visible = encYield r s.visible) := by
  simp only [encCommands, List.mem_cons, List.not_mem_nil, or_false] at hi
  rcases hi with rfl | rfl | rfl | rfl | rfl | rfl | rfl
  · exact ⟨_, encodeMode s.set.mode, rfl, fun _ => encodeMode_error_reportable, by simp, fun h => by
      simp [transact, h]⟩
  · exact ⟨_, .ok (encodeTimerMode s.delay), rfl, by simp, by simp, fun h => by simp [transact, h]⟩
  · exact ⟨_, encodePower s.set.power, rfl, fun _ => encodePower_error_reportable, by simp, fun h => by
      simp [transact, h]⟩
  · exact ⟨_, encodeFan s.set.fan, rfl, fun _ => encodeFan_error_reportable, by simp, fun h => by
      simp [transact, h]⟩
  · exact ⟨_, encodeSwing s.set.swing, rfl, fun _ => encodeSwing_error_reportable, by simp, fun h => by
      simp [transact, h]⟩
  · exact ⟨_, encodeTemperature s.set.temp, rfl, fun _ => encodeTemperature_error_reportable, by simp,
      fun h => by simp [transact, h]⟩
  · exact ⟨_, .ok (delayBytes s.delay).packed, rfl, by simp, by simp, fun h => by simp [transact, h]⟩

/-- Everything the end of a command's EXEC can be (R60, R61, R105, R118). -/
inductive ExecEnds (s : State) : Instr → State → Prop
  /-- `nop` completes. -/
  | nop : ExecEnds s .nop (complete s)
  /-- An `enc.*` command whose encoder gives a pattern writes RES. -/
  | pattern {i : Instr} (hi : i ∈ encCommands) (v : ResWord) : ExecEnds s i (complete { s with res := v })
  /-- An `enc.*` command whose encoder fails; `enc.tmr` and `enc.dly` have none that does. -/
  | fieldError {i : Instr} {e : Err} (hi : i ∈ encCommands) (hn : ¬(i = .encTmr ∨ i = .encDly))
      (he : e.Reportable) : ExecEnds s i (raiseError e s)
  /-- `build` stores the frame. -/
  | build {F : List Byte} (hF : buildCommand s.set s.delay = .ok F) :
      ExecEnds s .build (complete (storeFrame F s))
  /-- `render` stores the frame and goes on to EMIT. -/
  | render {F : List Byte} (hF : buildCommand s.set s.delay = .ok F) :
      ExecEnds s .render (startEmit (storeFrame F s))
  /-- `build` or `render` on invalid Settings clears FVALID and raises. -/
  | buildError {i : Instr} {e : Err} (hi : i = .build ∨ i = .render)
      (he : buildCommand s.set s.delay = .error e) : ExecEnds s i (raiseError e { s with fvalid := false })
  /-- `emitb` goes on to EMIT. -/
  | emitb (b : Byte) : ExecEnds s (.emitb b) (startEmit s)
  /-- `emits` with the code of a symbol goes on to EMIT. -/
  | emits {c : SymCode} {y : PulseSym} (hc : symOfCode c = some y) : ExecEnds s (.emits c) (startEmit s)
  /-- `emits` with any other code raises; no word decodes to it (log 13). -/
  | noSymbol {c : SymCode} (hc : symOfCode c = none) :
      ExecEnds s (.emits c) (raiseError ⟨.illegalCommand, c.setWidth 8⟩ s)

theorem ExecEnds.of_enc {i : Instr} (hi : i ∈ encCommands) (s : State) : ExecEnds s i (execEnd i s) := by
  obtain ⟨n, r, hr, herr, hok, -⟩ := execEnd_of_enc hi s
  rw [hr]
  cases r with
  | ok v => exact .pattern hi _
  | error e => exact .fieldError hi (fun hn => by simpa using hok hn) (herr e rfl)

theorem execEnd_ends (i : Instr) (s : State) : ExecEnds s i (execEnd i s) := by
  cases i
  case nop => exact .nop
  case build =>
    cases h : buildCommand s.set s.delay with
    | ok F => rw [show execEnd .build s = _ from buildThen_ok complete h]; exact .build h
    | error e =>
      rw [show execEnd .build s = _ from buildThen_error complete h]; exact .buildError (.inl rfl) h
  case render =>
    cases h : buildCommand s.set s.delay with
    | ok F => rw [show execEnd .render s = _ from buildThen_ok startEmit h]; exact .render h
    | error e =>
      rw [show execEnd .render s = _ from buildThen_error startEmit h]; exact .buildError (.inr rfl) h
  case emitb b => exact .emitb b
  case emits c =>
    rcases startEmits_cases c s with ⟨⟨y, hy⟩, hs⟩ | ⟨hc, hs⟩
    · rw [show execEnd (.emits c) s = _ from hs]; exact .emits hy
    · rw [show execEnd (.emits c) s = _ from hs]; exact .noSymbol hc
  all_goals exact .of_enc (by simp [encCommands]) s

/-! ### The invariant (O55, O56) -/

/-- The part of the invariant that does not depend on PHASE. -/
structure State.RegistersFit (s : State) : Prop where
  width : Config.leastDelayW ≤ s.pDelayW
  delayBits : s.set.delay < 2 ^ s.pDelayW
  frameForm : Memory.wf s.frame = true
  errFits : errValueFits s.errKind s.errValue = true
  frameValid : s.fvalid = true → isCommandFrame (frameBytes s.frame) = true
  oldFrameForm : Memory.wf s.oldFrame = true
  symbols : s.sink.all SymOut.fits = true

theorem State.Inv.registersFit {s : State} (h : s.Inv) : s.RegistersFit :=
  { h with }

/-- In IDLE nothing is asked of the sequencer but that there is no offer. -/
theorem inv_of_idle {s : State} (h : s.RegistersFit) (hp : s.phase = .idle) (ho : s.offer = false) :
    s.Inv :=
  { h with
    busyClear := fun hb => absurd hp ((busy_eq_true_iff s).mp hb)
    seq := by simp [seqFits, hp, ho]
    render := by simp [renderFits, hp]
    oldHeld := fun hb => absurd hp ((busy_eq_true_iff s).mp hb) }

/-- What the start of an emission must establish. -/
theorem inv_of_emit {s : State} (h : s.RegistersFit) (hp : s.phase = .emit)
    (hclear : s.done = false ∧ s.errKind = .none) (hseq : s.seqIdx.toNat < s.sched.length)
    (hrender : decode s.cur = .legal .render →
      s.fvalid = true ∧ buildCommand s.set s.delay = .ok (frameBytes s.frame))
    (hold : decode s.cur ≠ .legal .render → s.oldFrame = s.frame ∧ s.oldFvalid = s.fvalid) : s.Inv :=
  { h with
    busyClear := fun _ => hclear
    seq := by simpa [seqFits, hp] using hseq
    render := by
      by_cases hd : decode s.cur = .legal .render
      · simp [renderFits, hp, hd, hrender hd]
      · simp [renderFits, hd]
    oldHeld := fun _ he => hold (by simpa [emitsRender, hp] using he) }

/-- In EXEC the recorded FRAME and FVALID are the current ones (log 19). -/
theorem State.Inv.old_of_exec {s : State} (h : s.Inv) (hp : s.phase = .exec) :
    s.oldFrame = s.frame ∧ s.oldFvalid = s.fvalid :=
  h.oldHeld ((busy_eq_true_iff s).mpr (by simp [hp])) (by simp [emitsRender, hp])

theorem State.Inv.clear_of_busy {s : State} (h : s.Inv) (hp : s.phase ≠ .idle) :
    s.done = false ∧ s.errKind = .none := h.busyClear ((busy_eq_true_iff s).mpr hp)

/-- In EMIT the sequencer stands inside the schedule (R26). -/
theorem State.Inv.seqIdx_lt {s : State} (h : s.Inv) (hp : s.phase = .emit) :
    s.seqIdx.toNat < s.sched.length := by simpa [seqFits, hp] using h.seq

/-- While `render` emits, its frame is the one built from SET (R110). -/
theorem State.Inv.frame_of_render {s : State} (h : s.Inv) (hp : s.phase = .emit)
    (hd : decode s.cur = .legal .render) :
    s.fvalid = true ∧ buildCommand s.set s.delay = .ok (frameBytes s.frame) := by
  simpa [renderFits, hp, hd] using h.render

/-- The passing of a cycle touches nothing that the invariant speaks of (log 1). -/
theorem inv_advance {s : State} (h : s.Inv) : (advance s).Inv :=
  { h with
    busyClear := fun hb => h.busyClear (by simpa using hb)
    oldHeld := fun hb he => h.oldHeld (by simpa using hb) he }

theorem inv_resetEdge {s : State} (h : s.Inv) : (resetEdge s).Inv :=
  inv_of_idle ⟨h.width, Nat.two_pow_pos _, wf_nil, rfl, nofun, h.oldFrameForm, h.symbols⟩ rfl rfl

theorem inv_accept {s : State} (h : s.Inv) : (accept s).Inv :=
  { h with
    delayBits := latch_delay_lt _ _
    errFits := rfl
    busyClear := fun _ => ⟨rfl, rfl⟩
    seq := rfl
    render := rfl
    oldFrameForm := h.frameForm
    oldHeld := fun _ _ => ⟨rfl, rfl⟩ }

theorem inv_complete {s : State} (h : s.RegistersFit) : (complete s).Inv :=
  inv_of_idle { h with } rfl rfl

theorem inv_raiseError {s : State} {e : Err} (h : s.RegistersFit) (he : e.Reportable) :
    (raiseError e s).Inv :=
  inv_of_idle { h with errFits := he.2 } rfl rfl

/-- Storing a built frame keeps the registers fit (R96, log 8). -/
theorem registersFit_storeFrame {s : State} {F : List Byte} (h : s.RegistersFit)
    (hF : buildCommand s.set s.delay = .ok F) : (storeFrame F s).RegistersFit :=
  have hlen := buildCommand_length hF
  { h with
    frameForm := wf_writeBytes F h.frameForm (by simp [hlen])
    frameValid := fun _ => by
      rw [storeFrame_frame, frameBytes_writeBytes _ _ hlen]
      exact buildCommand_isCommandFrame hF }

theorem registersFit_startEmit {s : State} (h : s.RegistersFit) : (startEmit s).RegistersFit :=
  { h with }

/-- A symbol that passes is one of the six. -/
theorem registersFit_pass {s : State} {y : SymOut} (h : s.RegistersFit) (hy : y.fits = true) :
    State.RegistersFit { s with sink := s.sink ++ [y] } :=
  { h with symbols := by simp [h.symbols, hy] }

/-- `emitb` and `emits` begin to emit when their schedule is not empty (R105). -/
theorem inv_startEmit {s : State} {i : Instr} (h : s.Inv) (hp : s.phase = .exec) (hd : decode s.cur = .legal i)
    (hi : i ≠ .render) (hl : 0 < (schedOf i (startEmit s)).length) : (startEmit s).Inv := by
  refine inv_of_emit (registersFit_startEmit h.registersFit) rfl (h.clear_of_busy (by simp [hp])) ?_ ?_ ?_
  · rw [sched_of_legal (s := startEmit s) hd]
    exact hl
  · rw [startEmit_cur, hd]
    intro he
    cases he
    exact absurd rfl hi
  · exact fun _ => h.old_of_exec hp

/-- `render` begins to emit the frame it has just stored (R105, R110). -/
theorem inv_startRender {s : State} {F : List Byte} (h : s.Inv) (hp : s.phase = .exec)
    (hd : decode s.cur = .legal .render) (hF : buildCommand s.set s.delay = .ok F) :
    (startEmit (storeFrame F s)).Inv := by
  refine inv_of_emit (registersFit_startEmit (registersFit_storeFrame h.registersFit hF)) rfl
    (h.clear_of_busy (by simp [hp])) ?_ ?_ ?_
  · rw [sched_of_legal (s := startEmit (storeFrame F s)) hd]
    simp [schedOf, renderSeq_length]
  · intro _
    refine ⟨rfl, ?_⟩
    rw [startEmit_frame, storeFrame_frame, frameBytes_writeBytes _ _ (buildCommand_length hF)]
    exact hF
  · exact fun hn => absurd hd hn

/-- The end of EXEC keeps the invariant. -/
theorem inv_execEnds {s u : State} {i : Instr} (h : s.Inv) (hp : s.phase = .exec)
    (hd : decode s.cur = .legal i) (hu : ExecEnds s i u) : u.Inv := by
  have hf := h.registersFit
  cases hu with
  | nop => exact inv_complete hf
  | pattern _ v =>
    exact inv_complete { hf with }
  | fieldError _ _ he => exact inv_raiseError hf he
  | build hF => exact inv_complete (registersFit_storeFrame hf hF)
  | render hF => exact inv_startRender h hp hd hF
  | buildError _ he =>
    exact inv_raiseError { hf with frameValid := nofun } (buildCommand_error_reportable he)
  | emitb b => exact inv_startEmit h hp hd nofun (by simp [schedOf])
  | emits hc => exact inv_startEmit h hp hd nofun (by simp [schedOf, hc])
  | noSymbol _ => exact inv_raiseError hf (illegalCommand_reportable _)

/-- In EMIT the sink, SEQ_IDX and OFFER may move, as long as SEQ_IDX stays inside the schedule. -/
theorem inv_move {s : State} {sink : List SymOut} {q : BitVec 9} {o : Bool} (h : s.Inv) (hp : s.phase = .emit)
    (hq : q.toNat < s.sched.length) (hs : sink.all SymOut.fits = true) :
    State.Inv { s with sink := sink, seqIdx := q, offer := o } :=
  { h with
    seq := by simp only [seqFits, hp]; exact decide_eq_true hq
    symbols := hs }

/-- A symbol that is not the last leaves SEQ_IDX inside the schedule when it moves on by 1 (R27). -/
theorem seqIdx_succ_lt {sched : List PulseSym} {q : BitVec 9} {y : SymOut} (hlen : sched.length ≤ Config.renderN)
    (hy : symAt sched q.toNat = some y) (hlast : y.last = false) : (q + 1#9).toNat < sched.length := by
  have hlt : q.toNat < sched.length := symAt_isSome_iff.mp (by simp [hy])
  obtain ⟨x, -, rfl⟩ := symAt_eq_some_iff.mp hy
  have hne : q.toNat + 1 ≠ sched.length := of_decide_eq_false hlast
  simp only [Config.renderN] at hlen
  rw [BitVec.toNat_add]
  simp only [BitVec.toNat_ofNat]
  omega

/-- An edge of the emission loop keeps the invariant (R106). -/
theorem inv_emitEdge {s u : State} {i : Instr} (h : s.Inv) (hp : s.phase = .emit)
    (hd : decode s.cur = .legal i) (hu : emitEdge (schedOf i s) s = .next u) : u.Inv := by
  have hsched := sched_of_legal hd
  obtain ⟨y, hy, ⟨-, rfl⟩ | ⟨-, -, rfl⟩ | ⟨-, -, -, rfl⟩ | ⟨-, -, hlast, rfl⟩⟩ := emitEdge_cases hu
  · exact inv_move h hp (h.seqIdx_lt hp) h.symbols
  · exact h
  · exact inv_complete (registersFit_pass h.registersFit (fits_of_symAt hy))
  · refine inv_move h hp ?_ (registersFit_pass h.registersFit (fits_of_symAt hy)).symbols
    rw [hsched]
    exact seqIdx_succ_lt (schedOf_length_le i s) hy hlast

/-- Settles O56: case by case over what a step can do, with the registers' part of the invariant apart from PHASE's. -/
theorem everyStepKeepsTheInvariant : Obligations.EveryStepKeepsTheInvariant := by
  unfold Obligations.EveryStepKeepsTheInvariant
  intro s t h hst
  obtain ⟨u, rfl, hu⟩ := step_cases hst
  refine inv_advance ?_
  rcases hu with ⟨-, rfl⟩ | ⟨-, -, -, rfl⟩ | ⟨-, -, -, rfl⟩ | ⟨-, -, -, rfl⟩ |
    ⟨-, hp, -, ⟨i, hd, rfl⟩ | ⟨why, -, rfl⟩⟩ | ⟨-, hp, i, hd, hu⟩
  · exact inv_resetEdge h
  · exact inv_accept h
  · exact h
  · exact h
  · exact inv_execEnds h hp hd (execEnd_ends i s)
  · exact inv_raiseError h.registersFit (illegalCommand_reportable _)
  · exact inv_emitEdge h hp hd hu

/-- Settles O55: the reset state is idle and its registers fit. -/
theorem resetStateMeetsTheInvariant : Obligations.ResetStateMeetsTheInvariant := by
  unfold Obligations.ResetStateMeetsTheInvariant
  exact inv_of_idle ⟨by decide, by decide, wf_nil, rfl, nofun, wf_nil, rfl⟩ rfl rfl

/-! ### What a command leaves unchanged (O27, O35, O41) -/

/-- A loop edge on an empty schedule answers no next state (log 11). -/
theorem emitEdge_nil_ne_next (s t : State) : emitEdge [] s ≠ .next t := nofun

/-- A command that emits nothing answers a next state in EXEC only. -/
theorem exec_next_of_no_sched {i : Instr} {s t : State} (hi : schedOf i s = []) (h : exec i s = .next t) :
    s.phase = .exec ∧ t = execEnd i s := by
  rcases exec_next_cases h with h | ⟨-, h⟩
  · exact h
  · exact absurd (hi ▸ h) (emitEdge_nil_ne_next s t)

theorem schedOf_of_enc {i : Instr} (hi : i ∈ encCommands) (s : State) : schedOf i s = [] := by
  simp only [encCommands, List.mem_cons, List.not_mem_nil, or_false] at hi
  rcases hi with rfl | rfl | rfl | rfl | rfl | rfl | rfl <;> rfl

/-- An edge of the emission loop moves PHASE, DONE, SEQ_IDX, OFFER and the sink, which only grows (R106). -/
theorem emitEdge_frame {sched : List PulseSym} {s t : State} (h : emitEdge sched s = .next t) :
    ∃ ys p d q o, t = { s with
      sink := s.sink ++ ys, phase := p, done := d, seqIdx := q, offer := o } := by
  obtain ⟨y, -, ⟨-, rfl⟩ | ⟨-, -, rfl⟩ | ⟨-, -, -, rfl⟩ | ⟨-, -, -, rfl⟩⟩ := emitEdge_cases h
  · exact ⟨[], s.phase, s.done, s.seqIdx, !s.now.offerWait, by simp⟩
  · exact ⟨[], t.phase, t.done, t.seqIdx, t.offer, by simp⟩
  · exact ⟨[y], .idle, true, s.seqIdx, false, rfl⟩
  · exact ⟨[y], s.phase, s.done, s.seqIdx + 1#9, !s.now.offerWait, rfl⟩

/-- A well-formed `emits` carries the code of a symbol (R46, R55). -/
theorem symOfCode_of_wf {c : SymCode} (h : (Instr.emits c).wf = true) : ∃ y, symOfCode c = some y := by
  have key : ∀ c : SymCode, (Instr.emits c).wf = true → (symOfCode c).isSome = true := by decide
  exact Option.isSome_iff_exists.mp (key c h)

/-- Settles O27: an `enc.*` command ends its EXEC with a pattern in RES or with a raised error. -/
theorem encCommandsFrame : Obligations.EncCommandsFrame := by
  unfold Obligations.EncCommandsFrame
  intro i hi s t h
  obtain ⟨-, rfl⟩ := exec_next_of_no_sched (schedOf_of_enc hi s) h
  have hends := execEnd_ends i s
  generalize execEnd i s = u at hends
  cases hends with
  | pattern _ v => simp
  | fieldError _ hn he => simp [hn]
  | nop | build | render | emitb | emits | noSymbol => simp [encCommands] at hi
  | buildError hb => rcases hb with rfl | rfl <;> simp [encCommands] at hi

/-- Past the 17 bytes of a built frame FRAME reads as before (R96). -/
theorem read_storeFrame_of_le {s : State} {F : List Byte} (hF : buildCommand s.set s.delay = .ok F) {a : Nat}
    (ha : 17 ≤ a) : Memory.read (storeFrame F s).frame a = Memory.read s.frame a := by
  have hlen := buildCommand_length hF
  rw [storeFrame_frame, read_writeBytes, if_neg (by simp only [hlen, Config.frameN]; omega)]

/-- Settles O35: in EXEC by the way `build` or `render` ends it, in EMIT by the frame of the loop's edge. -/
theorem buildAndRenderFrame : Obligations.BuildAndRenderFrame := by
  unfold Obligations.BuildAndRenderFrame
  intro i hi s t h
  rcases exec_next_cases h with ⟨hp, rfl⟩ | ⟨hp, h⟩
  · have hends := execEnd_ends i s
    generalize execEnd i s = u at hends
    cases hends with
    | build hF => simpa [hp] using fun a => read_storeFrame_of_le hF (a := a)
    | render hF => simpa [hp] using fun a => read_storeFrame_of_le hF (a := a)
    | buildError _ he => simp [hp]
    | nop | emitb | emits | noSymbol => simp at hi
    | pattern hc | fieldError hc => rcases hi with rfl | rfl <;> simp [encCommands] at hc
  · have hne : i ≠ .build := by rintro rfl; exact emitEdge_nil_ne_next s t h
    obtain ⟨ys, p, d, q, o, rfl⟩ := emitEdge_frame h
    simp [hp, hne]

/-- Settles O41: `nop` completes, `emitb` and `emits` start to emit or do an edge of the loop. -/
theorem streamCommandsFrame : Obligations.StreamCommandsFrame := by
  unfold Obligations.StreamCommandsFrame
  intro i hi s t h
  rcases exec_next_cases h with ⟨-, rfl⟩ | ⟨-, h⟩
  · rcases hi with rfl | ⟨b, rfl⟩ | ⟨c, rfl, hc⟩
    · simp [execEnd]
    · simp [execEnd]
    · obtain ⟨y, hy⟩ := symOfCode_of_wf hc
      simp [execEnd, startEmits, hy]
  · have hne : i ≠ .nop := by rintro rfl; exact emitEdge_nil_ne_next s t h
    obtain ⟨ys, p, d, q, o, rfl⟩ := emitEdge_frame h
    simp [hne]

/-! ### The lifecycle: acceptance, progress, completion (O7, O14) -/

theorem cmdReady_eq_true_iff (s : State) : s.cmdReady = true ↔ s.now.rst = false ∧ s.phase = .idle := by
  simp [State.cmdReady]

/-- Every edge in IDLE runs no command: it is the reset edge, the acceptance, or idling (R14). -/
theorem step_idle {s : State} (hp : s.phase = .idle) :
    step s = .next (advance (if s.now.rst then resetEdge s else idleEdge s)) := by
  refine step_of_commandFree ?_
  unfold commandFreeEdge
  rw [hp]
  split <;> rfl

/-- Settles O7: the busy state after an IDLE edge is that of an acceptance. -/
theorem commandReadyAndAcceptance : Obligations.CommandReadyAndAcceptance := by
  unfold Obligations.CommandReadyAndAcceptance
  intro s
  refine ⟨cmdReady_eq_true_iff s, fun hp => ⟨_, step_idle hp, ?_⟩⟩
  show _ ↔ s.now.cmdValid = true ∧ s.cmdReady = true
  rw [advance_busy, cmdReady_eq_true_iff]
  cases hr : s.now.rst with
  | true => simp [State.busy]
  | false => cases hv : s.now.cmdValid <;> simp [idleEdge, State.cmdReady, State.busy, hr, hp, hv]

/-- The end of EXEC completes the command or leaves DONE and the error fields to EMIT (R62, R105). -/
theorem ExecEnds.lifecycle {s u : State} {i : Instr} (h : ExecEnds s i u) :
    (u.phase = .idle ∧ u.done = true) ∨
      (u.phase = .emit ∧ u.done = s.done ∧ u.errKind = s.errKind ∧ u.errValue = s.errValue) := by
  cases h with
  | nop | pattern | fieldError | build | buildError | noSymbol => exact .inl ⟨rfl, rfl⟩
  | render | emitb | emits => exact .inr ⟨rfl, rfl, rfl, rfl⟩

/-- So does an edge of EMIT (R106). -/
theorem emitEdge_lifecycle {sched : List PulseSym} {s u : State} (hp : s.phase = .emit)
    (h : emitEdge sched s = .next u) :
    (u.phase = .idle ∧ u.done = true) ∨
      (u.phase = .emit ∧ u.done = s.done ∧ u.errKind = s.errKind ∧ u.errValue = s.errValue) := by
  obtain ⟨y, -, ⟨-, rfl⟩ | ⟨-, -, rfl⟩ | ⟨-, -, -, rfl⟩ | ⟨-, -, -, rfl⟩⟩ := emitEdge_cases h
  · exact .inr ⟨hp, rfl, rfl, rfl⟩
  · exact .inr ⟨hp, rfl, rfl, rfl⟩
  · exact .inl ⟨rfl, rfl⟩
  · exact .inr ⟨hp, rfl, rfl, rfl⟩

/-- Outside reset an edge accepts a command, idles, completes the command in progress, or leaves it in progress with
DONE and the error fields as they were (R59, R62). -/
theorem step_lifecycle {s t : State} (h : step s = .next t) (hr : s.now.rst = false) :
    (s.busy = false ∧ t = advance (accept s)) ∨ (s.busy = false ∧ t = advance s) ∨
    (s.busy = true ∧ t.busy = false ∧ t.done = true) ∨
    (s.busy = true ∧ t.busy = true ∧ t.done = s.done ∧ t.errKind = s.errKind ∧ t.errValue = s.errValue) := by
  obtain ⟨u, rfl, hu⟩ := step_cases h
  rcases hu with ⟨hr', -⟩ | ⟨-, hp, -, rfl⟩ | ⟨-, hp, -, rfl⟩ | ⟨-, hp, -, rfl⟩ |
    ⟨-, hp, -, ⟨i, -, rfl⟩ | ⟨why, -, rfl⟩⟩ | ⟨-, hp, i, -, hu⟩
  · simp [hr] at hr'
  · simp [State.busy, hp]
  · simp [State.busy, hp]
  · simp [State.busy, hp]
  · rcases (execEnd_ends i s).lifecycle with ⟨hu, hd⟩ | ⟨hu, hd, hk, hv⟩ <;> simp [State.busy, *]
  · simp [State.busy, hp]
  · rcases emitEdge_lifecycle hp hu with ⟨hu, hd⟩ | ⟨hu, hd, hk, hv⟩ <;> simp [State.busy, *]

/-- Settles O14: the four kinds of edges of the lifecycle, one after the other. -/
theorem busyAndDoneFollowTheLifecycle : Obligations.BusyAndDoneFollowTheLifecycle := by
  unfold Obligations.BusyAndDoneFollowTheLifecycle
  refine ⟨busy_eq_true_iff, fun s t h hr => ?_⟩
  rcases step_lifecycle h hr with ⟨hb, rfl⟩ | ⟨hb, rfl⟩ | ⟨hb, hb', hd⟩ | ⟨hb, hb', hd, -, -⟩
  · simp [hb]
  · simp [hb]
  · simp [hb, hb', hd]
  · simp [hb, hb', hd]

/-! ### Who writes SET and CUR, RES, and FRAME with FVALID (O51 to O53) -/

/-- Outside reset the registers that outlive a command are written at acceptance and at the end of EXEC only: every
other edge leaves SET, CUR, RES, FRAME and FVALID as they were (R15). -/
theorem step_writers {s t : State} (h : step s = .next t) (hr : s.now.rst = false) :
    (s.phase = .idle ∧ s.now.cmdValid = true ∧ t = advance (accept s)) ∨
    (s.phase = .exec ∧ s.now.execWait = false ∧
      ∃ i u, decode s.cur = .legal i ∧ ExecEnds s i u ∧ t = advance u) ∨
    (¬(s.phase = .idle ∧ s.now.cmdValid = true) ∧
      (s.phase = .exec → s.now.execWait = false → ∀ i, decode s.cur ≠ .legal i) ∧
      t.set = s.set ∧ t.cur = s.cur ∧ t.res = s.res ∧ t.frame = s.frame ∧ t.fvalid = s.fvalid) := by
  obtain ⟨u, rfl, hu⟩ := step_cases h
  rcases hu with ⟨hr', -⟩ | ⟨-, hp, hv, rfl⟩ | ⟨-, hp, hv, rfl⟩ | ⟨-, hp, hw, rfl⟩ |
    ⟨-, hp, hw, ⟨i, hd, rfl⟩ | ⟨why, hd, rfl⟩⟩ | ⟨-, hp, i, -, hu⟩
  · simp [hr] at hr'
  · exact .inl ⟨hp, hv, rfl⟩
  · simp [hp, hv]
  · simp [hp, hw]
  · exact .inr (.inl ⟨hp, hw, i, _, hd, execEnd_ends i s, rfl⟩)
  · simp [hp, hd]
  · obtain ⟨ys, p, d, q, o, rfl⟩ := emitEdge_frame hu
    simp [hp]

/-- No command writes SET or CUR (R16, R17). -/
theorem ExecEnds.set_cur {s u : State} {i : Instr} (h : ExecEnds s i u) : u.set = s.set ∧ u.cur = s.cur := by
  cases h <;> exact ⟨rfl, rfl⟩

/-- Settles O51: acceptance is the one edge that writes SET and CUR. -/
theorem onlyAcceptanceWritesSetAndCur : Obligations.OnlyAcceptanceWritesSetAndCur := by
  unfold Obligations.OnlyAcceptanceWritesSetAndCur
  refine ⟨fun s t h hr => ?_, rfl⟩
  rcases step_writers h hr with ⟨hp, hv, rfl⟩ | ⟨hp, -, i, u, -, hu, rfl⟩ | ⟨hno, -, hset, hcur, -⟩
  · exact .inl ⟨hp, hv, rfl, rfl, rfl, rfl, rfl, rfl, rfl⟩
  · exact .inr ⟨by simp [hp], hu.set_cur⟩
  · exact .inr ⟨hno, hset, hcur⟩

/-- At the end of EXEC only an `enc.*` command without error writes RES (R18). -/
theorem ExecEnds.res_cases {s u : State} {i : Instr} (h : ExecEnds s i u) :
    u.res = s.res ∨ (i ∈ encCommands ∧ u.phase = .idle ∧ u.errKind = s.errKind) := by
  cases h with
  | pattern hi v => exact .inr ⟨hi, rfl, rfl⟩
  | nop | fieldError | build | render | buildError | emitb | emits | noSymbol => exact .inl rfl

/-- Settles O52: of all edges only the end of EXEC can write RES, and there only an `enc.*` command's pattern. -/
theorem onlySuccessfulEncCommandsWriteRes : Obligations.OnlySuccessfulEncCommandsWriteRes := by
  unfold Obligations.OnlySuccessfulEncCommandsWriteRes
  refine ⟨fun s hr => congrArg State.res (shown_of_no_reset hr), fun s t hinv h hr hne => ?_⟩
  rcases step_writers h hr with ⟨-, -, rfl⟩ | ⟨hp, -, i, u, hd, hu, rfl⟩ | ⟨-, -, -, -, hres, -⟩
  · exact absurd rfl hne
  · rcases hu.res_cases with hres | ⟨hi, hidle, hk⟩
    · exact absurd hres hne
    · exact ⟨hp, ⟨i, hi, hd⟩, hidle, hk.trans (hinv.clear_of_busy (by simp [hp])).2⟩
  · exact absurd hres hne

/-- At the end of EXEC `build` and `render` write FRAME and FVALID as `build_command` says, no other command does
(R19, R23). -/
theorem ExecEnds.frame_cases {s u : State} {i : Instr} (h : ExecEnds s i u) :
    ((i = .build ∨ i = .render) ∧
      ((∃ F, buildCommand s.set s.delay = .ok F ∧ frameBytes u.frame = F ∧ u.fvalid = true) ∨
        (∃ e, buildCommand s.set s.delay = .error e ∧ u.frame = s.frame ∧ u.fvalid = false))) ∨
    (¬(i = .build ∨ i = .render) ∧ u.frame = s.frame ∧ u.fvalid = s.fvalid) := by
  cases h with
  | build hF => exact .inl ⟨.inl rfl, .inl ⟨_, hF, frameBytes_writeBytes _ _ (buildCommand_length hF), rfl⟩⟩
  | render hF => exact .inl ⟨.inr rfl, .inl ⟨_, hF, frameBytes_writeBytes _ _ (buildCommand_length hF), rfl⟩⟩
  | buildError hi he => exact .inl ⟨hi, .inr ⟨_, he, rfl, rfl⟩⟩
  | pattern hi | fieldError hi => exact .inr ⟨by rintro (rfl | rfl) <;> simp [encCommands] at hi, rfl, rfl⟩
  | nop | emitb | emits | noSymbol => exact .inr ⟨by simp, rfl, rfl⟩

/-- Settles O53: of all edges only the end of EXEC writes FRAME and FVALID, and there what `frame_cases` says. -/
theorem onlyBuildAndRenderWriteTheFrame : Obligations.OnlyBuildAndRenderWriteTheFrame := by
  unfold Obligations.OnlyBuildAndRenderWriteTheFrame
  intro s t h hr
  rcases step_writers h hr with ⟨hp, -, rfl⟩ | ⟨hp, hw, i, u, hd, hu, rfl⟩ | ⟨-, hno, -, -, -, hkeep⟩
  · exact .inr ⟨by simp [hp], rfl, rfl⟩
  · rcases hu.frame_cases with ⟨hi, hwrite⟩ | ⟨hi, hkeep⟩
    · exact .inl ⟨hp, hw, by simpa [hd] using hi, hwrite⟩
    · exact .inr ⟨by simpa [hp, hw, hd] using hi, hkeep⟩
  · exact .inr ⟨fun ⟨hp, hw, hd⟩ => hd.elim (hno hp hw _) (hno hp hw _), hkeep⟩

/-! ### The error that STATUS reports (O54) -/

theorem reportedErr_of_clear {s : State} (h : s.errKind = .none) : s.reportedErr = none := if_pos h

theorem reportedErr_raiseError {e : Err} (he : e.Reportable) (s : State) :
    (raiseError e s).reportedErr = some e := if_neg he.1

/-- A reported kind 0 goes with the value 0 (R114). -/
theorem State.Inv.errValue_of_none {s : State} (h : s.Inv) (hk : s.errKind = .none) : s.errValue = 0 := by
  simpa [errValueFits, hk] using h.errFits

theorem encEffect_reportedErr {n : Nat} {r : Except Err (BitVec n)} {s : State} (hk : s.errKind = .none)
    (hr : ∀ e, r = .error e → e.Reportable) (v : Visible) :
    (encEffect r s).reportedErr = (encYield r v).err := by
  cases r with
  | ok x => exact reportedErr_of_clear hk
  | error e => exact reportedErr_raiseError (hr e rfl) s

theorem buildThen_reportedErr {f : State → State} {s : State} (hk : s.errKind = .none)
    (hf : ∀ u, (f u).errKind = u.errKind) (syms : List Byte → List SymOut) (v : Visible) :
    (buildThen f s).reportedErr = (buildYield syms (buildCommand s.set s.delay) v).err := by
  cases h : buildCommand s.set s.delay with
  | ok F =>
    rw [buildThen_ok f h]
    exact reportedErr_of_clear ((hf _).trans hk)
  | error e =>
    rw [buildThen_error f h]
    exact reportedErr_raiseError (buildCommand_error_reportable h) _

/-- The commands without an operand are all well-formed (R46, R47). -/
theorem operandlessCommand_wf : ∀ (op : BitVec 4), ∀ i ∈ operandlessCommand op, i.wf = true := by decide

/-- The decoder gives well-formed commands only (R48). -/
theorem wf_of_decode {w : CmdWord} {i : Instr} (h : decode w = .legal i) : i.wf = true := by
  unfold decode at h
  split_ifs at h with _ _ _ _ hc
  · cases h; rfl
  · cases h; exact decide_eq_true hc.2
  · cases ho : operandlessCommand (opField w) with
    | none => simp [ho] at h
    | some j =>
      obtain rfl : j = i := by simpa [ho] using h
      exact operandlessCommand_wf _ j ho

/-- Where an `enc.*` command ends, the error reported is its encoder's, as in the transaction. -/
theorem execEnd_reportedErr_of_enc {s : State} {i : Instr} (hi : i ∈ encCommands) (hk : s.errKind = .none)
    (hd : decode s.cur = .legal i) :
    (execEnd i s).reportedErr = (transact s.cur s.set s.delay s.visible).err := by
  obtain ⟨n, r, hr, herr, -, hy⟩ := execEnd_of_enc hi s
  rw [hr, hy hd]
  exact encEffect_reportedErr hk herr _

/-- Where EXEC ends, the error reported is that of the transaction (R64, R118). -/
theorem execEnd_reportedErr {s : State} {i : Instr} (hk : s.errKind = .none) (hd : decode s.cur = .legal i) :
    (execEnd i s).reportedErr = (transact s.cur s.set s.delay s.visible).err := by
  cases i
  case nop => simp only [transact, hd]; exact reportedErr_of_clear hk
  case build => simp only [transact, hd]; exact buildThen_reportedErr hk complete_errKind _ _
  case render => simp only [transact, hd]; exact buildThen_reportedErr hk startEmit_errKind _ _
  case emitb b => simp only [transact, hd]; exact reportedErr_of_clear hk
  case emits c =>
    obtain ⟨y, hy⟩ := symOfCode_of_wf (wf_of_decode hd)
    simp only [transact, hd, execEnd, startEmits, hy]
    exact reportedErr_of_clear hk
  all_goals exact execEnd_reportedErr_of_enc (by simp [encCommands]) hk hd

/-- The transaction of a command that emits gives no error (R111). -/
theorem transact_err_of_emit {s : State} (h : s.Inv) (hp : s.phase = .emit) :
    (transact s.cur s.set s.delay s.visible).err = none := by
  have hlt := h.seqIdx_lt hp
  cases hd : decode s.cur with
  | illegal why => simp [sched_of_illegal hd] at hlt
  | legal i =>
    rw [sched_of_legal hd] at hlt
    cases i
    case emitb b => simp [transact, hd]
    case emits c => simp [transact, hd]
    case render => simp [transact, hd, buildYield, h.frame_of_render hp hd]
    all_goals exact absurd hlt (Nat.not_lt_zero _)

/-- A completed command reports what its transaction gives (R24, R64). -/
theorem step_reportedErr {s t : State} (hinv : s.Inv) (h : step s = .next t) (hr : s.now.rst = false)
    (hb : s.busy = true) (hb' : t.busy = false) :
    t.reportedErr = (transact s.cur s.set s.delay s.visible).err := by
  have hk := (hinv.busyClear hb).2
  obtain ⟨u, rfl, hu⟩ := step_cases h
  rw [advance_busy] at hb'
  rw [advance_reportedErr]
  rcases hu with ⟨hr', -⟩ | ⟨-, hp, -, rfl⟩ | ⟨-, -, -, rfl⟩ | ⟨-, -, -, rfl⟩ |
    ⟨-, -, -, ⟨i, hd, rfl⟩ | ⟨why, hd, rfl⟩⟩ | ⟨-, hp, i, -, hu⟩
  · simp [hr] at hr'
  · simp at hb'
  · simp [hb] at hb'
  · simp [hb] at hb'
  · exact execEnd_reportedErr hk hd
  · simp only [transact, hd]; exact reportedErr_raiseError (illegalCommand_reportable _) s
  · rw [transact_err_of_emit hinv hp]
    obtain ⟨ys, p, d, q, o, rfl⟩ := emitEdge_frame hu
    exact reportedErr_of_clear hk

/-- Settles O54: the lifecycle says when the fields change, the transaction to what. -/
theorem errorFieldsFollowTheLastCommand : Obligations.ErrorFieldsFollowTheLastCommand := by
  unfold Obligations.ErrorFieldsFollowTheLastCommand
  intro s t hinv h hr
  refine ⟨fun hb hb' => ?_, fun hb => ?_, fun hb => ?_, fun hb hb' => ?_⟩
  · rcases step_lifecycle h hr with ⟨-, rfl⟩ | ⟨-, rfl⟩ | ⟨hs, -⟩ | ⟨hs, -⟩
    · exact ⟨rfl, rfl⟩
    · simp [hb] at hb'
    · simp [hb] at hs
    · simp [hb] at hs
  · rcases step_lifecycle h hr with ⟨hs, rfl⟩ | ⟨-, rfl⟩ | ⟨hs, ht, -⟩ | ⟨-, -, -, hk, hv⟩
    · simp [hs] at hb
    · exact ⟨rfl, rfl⟩
    · simp [hs, ht] at hb
    · exact ⟨hk, hv⟩
  · have hk := (hinv.busyClear hb).2
    exact ⟨hk, hinv.errValue_of_none hk⟩
  · exact ⟨step_reportedErr hinv h hr hb hb', (everyStepKeepsTheInvariant s t hinv h).errValue_of_none⟩

/-! ### The values at reset and the STATUS word (O13, O15) -/

/-- Settles O13: `State.reset` is written with the values of R29. -/
theorem resetStateHasTheResetValues : Obligations.ResetStateHasTheResetValues := by
  unfold Obligations.ResetStateHasTheResetValues
  exact ⟨rfl, rfl, rfl, read_nil, rfl, rfl, rfl, rfl, rfl, rfl, rfl, rfl, rfl, rfl⟩

/-- The fields of a word that is put together as STATUS is (R20). -/
theorem statusWord_fields (value : Byte) (code : BitVec 3) (fvalid done busy : Bool) :
    let w := value ++ 0#1 ++ code ++ 0#1 ++ BitVec.ofBool fvalid ++ BitVec.ofBool done ++ BitVec.ofBool busy
    w.getLsbD 0 = busy ∧ w.getLsbD 1 = done ∧ w.getLsbD 2 = fvalid ∧ w.getLsbD 3 = false ∧
      w.extractLsb' 4 3 = code ∧ w.getLsbD 7 = false ∧ w.extractLsb' 8 8 = value := by
  intro w
  have bit (i : Nat) : w.getLsbD i =
    (value ++ 0#1 ++ code ++ 0#1 ++ BitVec.ofBool fvalid ++ BitVec.ofBool done ++ BitVec.ofBool busy).getLsbD i := rfl
  simp only [BitVec.getLsbD_append] at bit
  refine ⟨by rw [bit]; simp, by rw [bit]; simp, by rw [bit]; simp, by rw [bit]; simp, ?_, by rw [bit]; simp, ?_⟩
  · ext i hi
    rw [BitVec.getElem_extractLsb', bit]
    simp (disch := omega) only [if_neg, if_pos]
    rw [show 4 + i - 1 - 1 - 1 - 1 = i by omega, BitVec.getLsbD_eq_getElem hi]
  · ext i hi
    rw [BitVec.getElem_extractLsb', bit]
    simp (disch := omega) only [if_neg]
    rw [show 8 + i - 1 - 1 - 1 - 1 - 3 - 1 = i by omega, BitVec.getLsbD_eq_getElem hi]

/-- Settles O15: the layout is that of the concatenation. -/
theorem statusWordLayout : Obligations.StatusWordLayout := by
  unfold Obligations.StatusWordLayout
  refine ⟨fun s => ⟨fun hr => congrArg State.status (shown_of_no_reset hr), ?_⟩,
    ⟨rfl, rfl, rfl, rfl, rfl, rfl, rfl⟩, rfl⟩
  exact statusWord_fields _ _ _ _ _

end Sys2Proof.Machine

/-! # The host's view of the block (20_memory.md): the frame read port, and how long an outcome stays readable

The two statements need one fact: what the end of EXEC and an edge of EMIT do to the registers does not depend on
the ports of the cycle, but for the wait bit in OFFER and `sym_ready` in EMIT. -/

namespace Sys2Proof.Machine

/-! ### The registers do not depend on the cycle they are computed in -/

/-- The state with its cycle's ports, the cycles to come and the read bit of log 19 changed, and every register of
the block as it was. -/
def State.mapCycles (n : ClockCycle → ClockCycle) (l : List ClockCycle → List ClockCycle) (b : Bool → Bool)
    (s : State) : State :=
  { s with now := n s.now, later := l s.later, seesNew := b s.seesNew }

/-- The passing of a cycle is such a change (log 1). -/
theorem advance_eq_mapCycles (s : State) :
    advance s = s.mapCycles (fun _ => s.nextCycle) List.tail (fun r => s.busy && (r || s.nextCycle.readsNew)) :=
  rfl

section MapCycles

variable {n : ClockCycle → ClockCycle} {l : List ClockCycle → List ClockCycle} {b : Bool → Bool}

theorem encEffect_mapCycles {w : Nat} (r : Except Err (BitVec w)) (s : State) :
    encEffect r (s.mapCycles n l b) = (encEffect r s).mapCycles n l b := by
  cases r <;> rfl

/-- The first offer may come at the edge that ends EXEC, if the wait bit lets it (log 10). -/
theorem startEmit_mapCycles {s : State} (h : (n s.now).offerWait = s.now.offerWait) :
    startEmit (s.mapCycles n l b) = (startEmit s).mapCycles n l b := by
  simp [startEmit, State.mapCycles, h]

theorem startEmits_mapCycles {c : SymCode} {s : State}
    (h : (n s.now).offerWait = s.now.offerWait ∨ (startEmits c s).phase = .idle) :
    startEmits c (s.mapCycles n l b) = (startEmits c s).mapCycles n l b := by
  unfold startEmits at *
  cases hc : symOfCode c with
  | none => rfl
  | some y => exact startEmit_mapCycles (h.resolve_right (by simp [hc]))

theorem buildThen_mapCycles {f : State → State} {s : State}
    (hf : ∀ F, buildCommand s.set s.delay = .ok F →
      f ((storeFrame F s).mapCycles n l b) = (f (storeFrame F s)).mapCycles n l b) :
    buildThen f (s.mapCycles n l b) = (buildThen f s).mapCycles n l b := by
  cases h : buildCommand s.set s.delay with
  | ok F => rw [buildThen_ok f h, ← hf F h]; exact buildThen_ok (s := s.mapCycles n l b) f h
  | error e => rw [buildThen_error f h]; exact buildThen_error (s := s.mapCycles n l b) f h

/-- The end of EXEC reads nothing of the cycle but the wait bit, and that only where it starts an emission. -/
theorem execEnd_mapCycles {i : Instr} {s : State}
    (h : (n s.now).offerWait = s.now.offerWait ∨ (execEnd i s).phase = .idle) :
    execEnd i (s.mapCycles n l b) = (execEnd i s).mapCycles n l b := by
  cases i
  case nop => rfl
  case build => exact buildThen_mapCycles fun _ _ => rfl
  case emitb _ => exact startEmit_mapCycles (h.resolve_right nofun)
  case emits c => exact startEmits_mapCycles h
  case render =>
    refine buildThen_mapCycles fun F hF => startEmit_mapCycles (h.resolve_right ?_)
    rw [show execEnd .render s = _ from buildThen_ok startEmit hF]
    exact nofun
  case encTmr => exact encEffect_mapCycles (.ok (encodeTimerMode s.delay)) s
  case encDly => exact encEffect_mapCycles (.ok (delayBytes s.delay).packed) s
  all_goals exact encEffect_mapCycles _ s

theorem schedOf_mapCycles (i : Instr) (s : State) : schedOf i (s.mapCycles n l b) = schedOf i s := by
  cases i <;> rfl

end MapCycles

/-! ### The step does not depend on what it does not sample -/

/-- A command's meaning has one of two shapes: one effect that ends EXEC, or a start and then its schedule (R61,
R105). -/
theorem exec_shape (i : Instr) :
    (∀ s, exec i s = atExec s (execEnd i)) ∨
      (∀ s, exec i s = emitCommand (execEnd i) (schedOf i s) s) := by
  cases i
  case emitb _ | emits _ | render => exact .inr fun _ => rfl
  all_goals exact .inl fun _ => rfl

/-- The state with its cycle's ports changed and nothing else. -/
abbrev State.mapNow (n : ClockCycle → ClockCycle) (s : State) : State := s.mapCycles n id id

section MapNow

variable {n : ClockCycle → ClockCycle} {s : State}

/-- The ports of a cycle are gone when the next cycle's come in (log 1). -/
theorem advance_mapNow (n : ClockCycle → ClockCycle) (s : State) : advance (s.mapNow n) = advance s := rfl

theorem emitEdge_mapNow (ho : (n s.now).offerWait = s.now.offerWait) (hr : (n s.now).symReady = s.now.symReady)
    (sched : List PulseSym) :
    advanceResult (emitEdge sched (s.mapNow n)) = advanceResult (emitEdge sched s) := by
  rw [emitEdge, emitEdge, show (s.mapNow n).now.symReady = s.now.symReady from hr,
    show (s.mapNow n).now.offerWait = s.now.offerWait from ho,
    show (s.mapNow n).offer = s.offer from rfl, show (s.mapNow n).seqIdx = s.seqIdx from rfl]
  cases symAt sched s.seqIdx.toNat with
  | none => rfl
  | some y =>
    dsimp only
    split
    · split
      · split <;> rfl
      · rfl
    · rfl

/-- A command in progress reads of the ports only `sym_ready`, besides the model's wait bit. -/
theorem exec_mapNow (ho : (n s.now).offerWait = s.now.offerWait) (hr : (n s.now).symReady = s.now.symReady)
    (i : Instr) : advanceResult (exec i (s.mapNow n)) = advanceResult (exec i s) := by
  have hend : advance (execEnd i (s.mapNow n)) = advance (execEnd i s) := by
    rw [execEnd_mapCycles (.inl ho), advance_mapNow]
  have hphase : (s.mapNow n).phase = s.phase := rfl
  rcases exec_shape i with h | h
  · rw [h, h, atExec, atExec, hphase]
    cases s.phase <;> simp [advanceResult, hend]
  · rw [h, h, schedOf_mapCycles, emitCommand, emitCommand, hphase]
    cases s.phase with
    | idle => rfl
    | exec => simp [advanceResult, hend]
    | emit => exact emitEdge_mapNow ho hr _

theorem runIllegal_mapNow (why : Illegal) :
    advanceResult (runIllegal why (s.mapNow n)) = advanceResult (runIllegal why s) := by
  unfold runIllegal
  rw [show (s.mapNow n).phase = s.phase from rfl]
  cases s.phase <;> rfl

theorem commandFreeEdge_mapNow (hr : (n s.now).rst = s.now.rst) (hw : (n s.now).execWait = s.now.execWait)
    (hidle : idleEdge (s.mapNow n) = (idleEdge s).mapNow n) :
    commandFreeEdge (s.mapNow n) = (commandFreeEdge s).map (·.mapNow n) := by
  rw [commandFreeEdge, commandFreeEdge, hidle, show (s.mapNow n).now.rst = s.now.rst from hr,
    show (s.mapNow n).now.execWait = s.now.execWait from hw,
    show (s.mapNow n).phase = s.phase from rfl]
  cases s.now.rst with
  | true => rfl
  | false =>
    cases s.phase with
    | idle => rfl
    | exec => cases s.now.execWait <;> rfl
    | emit => rfl

/-- Two cycles with the same `sym_ready` and wait bit differ to the step at most at an edge without a command. -/
theorem step_mapNow (ho : (n s.now).offerWait = s.now.offerWait) (hr : (n s.now).symReady = s.now.symReady)
    (hfree : commandFreeEdge (s.mapNow n) = (commandFreeEdge s).map (·.mapNow n)) :
    step (s.mapNow n) = step s := by
  cases hf : commandFreeEdge s with
  | some u =>
    rw [hf] at hfree
    rw [step_of_commandFree hfree, step_of_commandFree hf, advance_mapNow]
  | none =>
    rw [hf] at hfree
    cases hd : decode s.cur with
    | legal i =>
      rw [step_of_legal hfree (s := s.mapNow n) hd, step_of_legal hf hd]
      exact exec_mapNow ho hr i
    | illegal why =>
      rw [step_of_illegal hfree (s := s.mapNow n) hd, step_of_illegal hf hd]
      exact runIllegal_mapNow why

end MapNow

/-! ### The frame read port (O16) -/

/-- `frame_addr` of a cycle replaced. -/
def ClockCycle.withFrameAddr (a : BitVec 5) (c : ClockCycle) : ClockCycle := { c with frameAddr := a }

/-- Neither acceptance nor idling looks at `frame_addr`. -/
theorem idleEdge_withFrameAddr (a : BitVec 5) (s : State) :
    idleEdge (s.mapNow (ClockCycle.withFrameAddr a)) =
      (idleEdge s).mapNow (ClockCycle.withFrameAddr a) :=
  (apply_ite (State.mapNow (ClockCycle.withFrameAddr a)) _ (accept s) s).symm

theorem outputs_frameData {s : State} (hr : s.now.rst = false) :
    s.outputs.frameData = frameData s.frame s.now.frameAddr := by
  simp [State.outputs, shown_of_no_reset hr]

/-- Settles O16: the port is `frameData` of FRAME and the index, and the index is not among what the step samples. -/
theorem frameReadPort : Obligations.FrameReadPort := by
  unfold Obligations.FrameReadPort
  intro s
  refine ⟨fun hr ha => ?_, fun hr ha => ?_, fun u hr hu hframe haddr => ?_, fun a => ?_⟩
  · rw [outputs_frameData hr]; exact if_pos ha
  · rw [outputs_frameData hr]; exact if_neg (by omega)
  · rw [outputs_frameData hr, outputs_frameData hu, hframe, haddr]
  · exact step_mapNow (n := ClockCycle.withFrameAddr a) rfl rfl 
      (commandFreeEdge_mapNow rfl rfl (idleEdge_withFrameAddr a s))

/-! ### How long an outcome stays readable (O10) -/

theorem step_of_idle_no_acceptance {s : State} (hb : s.busy = false) (hr : s.now.rst = false)
    (hno : ¬(s.now.cmdValid = true ∧ s.cmdReady = true)) : step s = .next (advance s) := by
  have hp : s.phase = .idle := by simpa [State.busy] using hb
  rw [step_idle hp, hr, idleEdge, if_neg (by simp), if_neg (by simpa using hno)]

theorem hostRead_status_busy (s : State) : s.hostRead.status.getLsbD 0 = s.readView.busy :=
  (statusWord_fields s.readView.errValue s.readView.errKind.code s.readView.fvalid s.readView.done
    s.readView.busy).1

/-- Reads return BUSY = 0 from an idle block, and from the new values of a command that is about to complete (R41,
R135). -/
theorem readView_of_not_busy {s : State} (hr : s.now.rst = false) (hb : s.readView.busy = false) :
    s.phase = .idle ∨ (s.phase = .exec ∧ s.seesNew = true ∧ s.readView = s.execOutcome) := by
  rw [readView_of_no_reset hr] at hb ⊢
  cases hp : s.phase with
  | idle => exact .inl rfl
  | exec =>
    rw [newView_exec hp, oldView_exec hp] at hb ⊢
    cases hn : s.seesNew with
    | true => exact .inr ⟨rfl, rfl, rfl⟩
    | false => simp [hn, State.busy, hp] at hb
  | emit =>
    rw [newView_emit hp, oldView_emit hp] at hb
    cases hn : s.seesNew <;> simp [hn, State.busy, hp] at hb

theorem readOf_advance (s : State) (a : BitVec 5) : readOf (advance s) a = readOf s a := rfl

/-- While `P_LAT_CMD` runs, the values that a completing command will leave are the same in every cycle. -/
theorem readOf_execOutcome_advance {s : State} (hp : s.phase = .exec) (hb : s.execOutcome.busy = false)
    (a : BitVec 5) : readOf (advance s).execOutcome a = readOf s.execOutcome a := by
  cases hd : decode s.cur with
  | legal i =>
    rw [execOutcome_of_legal hp hd] at hb ⊢
    have hidle : (execEnd i s).phase = .idle := by simpa [State.busy] using hb
    rw [execOutcome_of_legal (s := advance s) hp hd, advance_eq_mapCycles, execEnd_mapCycles (.inr hidle)]
    rfl
  | illegal why =>
    rw [execOutcome_of_illegal hp hd, execOutcome_of_illegal (s := advance s) hp hd]
    rfl

/-- At the edge that ends EXEC the registers become the new values of a read (R41, R61). -/
theorem step_of_execEnd {s : State} (hr : s.now.rst = false) (hp : s.phase = .exec)
    (hw : s.now.execWait = false) : step s = .next (advance s.execOutcome) := by
  have hfree : commandFreeEdge s = none := commandFreeEdge_none_iff.mpr ⟨hr, .inl ⟨hp, hw⟩⟩
  cases hd : decode s.cur with
  | legal i => rw [step_of_legal hfree hd, exec_exec i hp, execOutcome_of_legal hp hd]; rfl
  | illegal why =>
    rw [step_of_illegal hfree hd, runIllegal_next_iff.mpr ⟨hp, rfl⟩, execOutcome_of_illegal hp hd]
    rfl

/-- While `P_LAT_CMD` runs, the step only lets the next cycle in (R61). -/
theorem step_of_execWait {s : State} (hr : s.now.rst = false) (hp : s.phase = .exec)
    (hw : s.now.execWait = true) : step s = .next (advance s) :=
  step_of_commandFree (by simp [commandFreeEdge, hr, hp, hw])

/-- What reads return once they return BUSY = 0 they return in the next cycle too, at every index (R43). -/
theorem step_keeps_reads {s t : State} (h : step s = .next t) (hr : s.now.rst = false) (hr' : t.now.rst = false)
    (hno : ¬(s.now.cmdValid = true ∧ s.cmdReady = true)) (hb : s.readView.busy = false) (a : BitVec 5) :
    readOf t.readView a = readOf s.readView a := by
  rcases readView_of_not_busy hr hb with hp | ⟨hp, hn, hview⟩
  · rw [step_of_idle_no_acceptance (by simp [State.busy, hp]) hr hno] at h
    cases h
    rw [readView_idle hr' hp, readView_idle hr hp, readOf_advance]
  · rw [hview] at hb ⊢
    cases hw : s.now.execWait with
    | true =>
      rw [step_of_execWait hr hp hw] at h
      cases h
      have hn' : (advance s).seesNew = true := by simp [advance_seesNew, hn, State.busy, hp]
      rw [readView_of_no_reset hr', hn', if_pos rfl, newView_exec (s := advance s) hp]
      exact readOf_execOutcome_advance hp hb a
    | false =>
      rw [step_of_execEnd hr hp hw] at h
      cases h
      rw [readView_idle hr' (by simpa [State.busy] using hb), readOf_advance]

/-- Settles O10: an idle block's edge only lets the next cycle in, and reads that return BUSY = 0 stay. -/
theorem outcomeHoldsUntilTheNextAcceptance : Obligations.OutcomeHoldsUntilTheNextAcceptance := by
  unfold Obligations.OutcomeHoldsUntilTheNextAcceptance
  refine ⟨fun s hb hr hno => step_of_idle_no_acceptance hb hr hno, fun s t h hr hr' hno hb _ => ?_⟩
  rw [hostRead_status_busy] at hb
  have hkeep := step_keeps_reads h hr hr' hno hb
  refine ⟨(congrArg HostRead.status (hkeep 0) :), (congrArg HostRead.res (hkeep 0) :), fun haddr => ?_⟩
  rw [State.hostRead, State.hostRead, haddr, hkeep]

end Sys2Proof.Machine

/-! # The command words and the assembler (30_encoding.md)

A word is its three fields. The decoder's branches are stated by them, and so is the word of a command; from that
follow the round trips, the verdict on every word, the hand-built render and the assembler. -/

namespace Sys2Proof.Machine

/-! ### A word and its three fields (R45) -/

@[simp] theorem opField_append (op rsv : BitVec 4) (opnd : Byte) : opField (op ++ rsv ++ opnd) = op := by
  unfold opField
  rw [BitVec.extractLsb'_append_eq_of_le (by decide)]
  exact BitVec.extractLsb'_append_eq_left

@[simp] theorem rsvField_append (op rsv : BitVec 4) (opnd : Byte) : rsvField (op ++ rsv ++ opnd) = rsv := by
  unfold rsvField
  rw [BitVec.extractLsb'_append_eq_of_le (by decide)]
  exact BitVec.extractLsb'_append_eq_right

@[simp] theorem opndField_append (op rsv : BitVec 4) (opnd : Byte) : opndField (op ++ rsv ++ opnd) = opnd :=
  BitVec.extractLsb'_append_eq_right

/-- The three fields are the whole word. -/
theorem fields_append (w : CmdWord) : opField w ++ rsvField w ++ opndField w = w := by
  unfold opField rsvField opndField
  rw [BitVec.extractLsb'_append_extractLsb'_eq_extractLsb' (by rfl),
    BitVec.extractLsb'_append_extractLsb'_eq_extractLsb' (by rfl)]
  exact BitVec.extractLsb'_eq_self

/-- The fields of the number that has them as its digits. -/
theorem fields_ofNat (op : Nat) {rsv opnd : Nat} (hrsv : rsv < 16) (hopnd : opnd < 256) :
    opField (BitVec.ofNat 16 (op * 4096 + rsv * 256 + opnd)) = BitVec.ofNat 4 op ∧
    rsvField (BitVec.ofNat 16 (op * 4096 + rsv * 256 + opnd)) = BitVec.ofNat 4 rsv ∧
    opndField (BitVec.ofNat 16 (op * 4096 + rsv * 256 + opnd)) = BitVec.ofNat 8 opnd := by
  simp only [opField, rsvField, opndField, ← BitVec.toNat_inj, BitVec.extractLsb'_toNat, BitVec.toNat_ofNat,
    Nat.shiftRight_eq_div_pow]
  omega

theorem ofNat_eq_zero_iff {n k : Nat} (h : k < 2 ^ n) : BitVec.ofNat n k = 0#n ↔ k = 0 := by
  rw [← BitVec.toNat_inj, BitVec.toNat_ofNat, BitVec.toNat_ofNat, Nat.mod_eq_of_lt h, Nat.zero_mod]

/-! ### The word of a command by its fields (R47) -/

theorem encode_emitb (b : Byte) : encode (.emitb b) = 0x9#4 ++ 0x0#4 ++ b := rfl

theorem encode_emits : ∀ c : SymCode, encode (.emits c) = 0xA#4 ++ 0x0#4 ++ (0#5 ++ c) := by decide

theorem encode_operandless :
    ∀ (op : BitVec 4), ∀ i ∈ operandlessCommand op, encode i = op ++ 0x0#4 ++ 0x00#8 := by decide

/-- The opcodes of the commands without an operand. -/
theorem operandlessCommand_isSome_iff :
    ∀ op : BitVec 4, (operandlessCommand op).isSome ↔ op.toNat < 12 ∧ op ≠ 0x9 ∧ op ≠ 0xA := by decide

/-- An operand names a symbol when it is at most 5 (R48). -/
theorem namesSymbol_iff (b : Byte) : (b.extractLsb' 3 5 = 0 ∧ (b.extractLsb' 0 3).toNat ≤ 5) ↔ b.toNat ≤ 5 := by
  simp only [← BitVec.toNat_inj, BitVec.extractLsb'_toNat, Nat.shiftRight_eq_div_pow, BitVec.ofNat_eq_ofNat,
    BitVec.toNat_ofNat]
  have := b.isLt
  omega

/-- The upper bits of such an operand are 0. -/
theorem append_of_namesSymbol {b : Byte} (h : b.extractLsb' 3 5 = 0) : 0#5 ++ b.extractLsb' 0 3 = b := by
  rw [show 0#5 = b.extractLsb' 3 5 from h.symm, BitVec.extractLsb'_append_extractLsb'_eq_extractLsb' (by rfl)]
  exact BitVec.extractLsb'_eq_self

/-! ### The branches of the decoder (R48) -/

section Branches

variable {w : CmdWord}

theorem decode_reservedOpcode (ho : 12 ≤ (opField w).toNat) : decode w = .illegal .reservedOpcode := if_pos ho

theorem decode_reservedBits (ho : (opField w).toNat < 12) (hr : rsvField w ≠ 0#4) :
    decode w = .illegal .reservedBits :=
  (if_neg (Nat.not_le.mpr ho)).trans (if_pos hr)

theorem decode_emitb (ho : opField w = 0x9#4) (hr : rsvField w = 0#4) :
    decode w = .legal (.emitb (opndField w)) := by
  simp [decode, ho, hr]

theorem decode_emits (ho : opField w = 0xA#4) (hr : rsvField w = 0#4) (hs : (opndField w).toNat ≤ 5) :
    decode w = .legal (.emits ((opndField w).extractLsb' 0 3)) := by
  simp only [decode, ho, hr, if_pos ((namesSymbol_iff _).mpr hs)]
  rfl

theorem decode_emits_badOperand (ho : opField w = 0xA#4) (hr : rsvField w = 0#4)
    (hs : 5 < (opndField w).toNat) : decode w = .illegal .badOperand := by
  simp only [decode, ho, hr, if_neg (mt (namesSymbol_iff _).mp (Nat.not_le.mpr hs))]
  rfl

/-- With any other opcode the operand has to be 0. -/
theorem decode_operandless {i : Instr} (ho : operandlessCommand (opField w) = some i) (hr : rsvField w = 0#4) :
    decode w = if opndField w = 0 then .legal i else .illegal .badOperand := by
  obtain ⟨hlt, h9, h10⟩ := (operandlessCommand_isSome_iff (opField w)).mp (by rw [ho]; rfl)
  have hr : ¬rsvField w ≠ 0 := not_not.mpr hr
  unfold decode
  rw [if_neg (Nat.not_le.mpr hlt), if_neg hr, if_neg h9, if_neg h10, ho]

end Branches

/-! ### Decoding and encoding invert each other (R47, R48) -/

/-- Settles O1: the fields of a command's word lead the decoder to its branch. -/
theorem decodeInvertsEncode : Obligations.DecodeInvertsEncode := by
  unfold Obligations.DecodeInvertsEncode
  intro i hi
  cases i
  case emitb b =>
    rw [encode_emitb, decode_emitb (opField_append ..) (rsvField_append ..), opndField_append]
  case emits c =>
    have hc : (0#5 ++ c).toNat ≤ 5 := by
      rw [BitVec.toNat_append]
      simpa [Instr.wf] using hi
    rw [encode_emits, decode_emits (opField_append ..) (rsvField_append ..) (by rwa [opndField_append]),
      opndField_append, BitVec.extractLsb'_append_eq_right]
  all_goals exact decode_operandless rfl rfl

/-- Settles O2: in each branch that gives a command, the fields of the word are those of the command's word. -/
theorem encodeInvertsDecode : Obligations.EncodeInvertsDecode := by
  unfold Obligations.EncodeInvertsDecode
  intro w i h
  refine ⟨wf_of_decode h, ?_⟩
  rw [← fields_append w]
  unfold decode at h
  split_ifs at h with _ hr h9 h10 hs hz
  · cases h
    rw [encode_emitb, h9, not_not.mp hr]
    rfl
  · cases h
    rw [encode_emits, append_of_namesSymbol hs.1, h10, not_not.mp hr]
    rfl
  · cases ho : operandlessCommand (opField w) with
    | none => simp [ho] at h
    | some j =>
      obtain rfl : j = i := by simpa [ho] using h
      rw [encode_operandless _ j ho, not_not.mp hr, hz]
      rfl

/-! ### The verdict on every word, and the legal words (R48) -/

/-- The commands of the set: those without an operand, `emitb` with every byte, `emits` with every symbol. -/
def allCommands : List Instr :=
  operandlessCommands ++ (List.finRange 256).map (fun b => .emitb ⟨b⟩) ++ allSyms.map (fun y => .emits y.code)

theorem length_allCommands : allCommands.length = 272 := by
  simp [allCommands, operandlessCommands, allSyms]

/-- The codes of the six symbols are those that `emits` takes (R46, R55). -/
theorem exists_code_iff_wf : ∀ c : SymCode, (∃ y ∈ allSyms, y.code = c) ↔ (Instr.emits c).wf = true := by decide

theorem mem_allCommands_iff (i : Instr) : i ∈ allCommands ↔ i.wf = true := by
  cases i
  case emitb b => simp [allCommands, operandlessCommands, Instr.wf]
  case emits c => simpa [allCommands, operandlessCommands] using exists_code_iff_wf c
  all_goals simp [allCommands, operandlessCommands, Instr.wf]

theorem nodup_allCommands : allCommands.Nodup := by
  have hbytes : ((List.finRange 256).map fun b => Instr.emitb ⟨b⟩).Nodup :=
    (List.nodup_finRange 256).map fun a b h => by simpa using h
  have hsyms : (allSyms.map fun y => Instr.emits y.code).Nodup := by decide
  refine List.Nodup.append (List.Nodup.append (by decide) hbytes ?_) hsyms ?_
  · simp [List.Disjoint, operandlessCommands]
  · simp [List.Disjoint, operandlessCommands, allSyms]

/-- Exactly the words of `allCommands` are legal. -/
theorem legal_iff_mem (w : CmdWord) : (∃ i, decode w = .legal i) ↔ w ∈ allCommands.map encode := by
  simp only [List.mem_map, mem_allCommands_iff]
  constructor
  · rintro ⟨i, h⟩
    exact ⟨i, encodeInvertsDecode w i h⟩
  · rintro ⟨i, hi, rfl⟩
    exact ⟨i, decodeInvertsEncode i hi⟩

theorem nodup_words : (allCommands.map encode).Nodup := by
  refine nodup_allCommands.map_on fun i hi j hj h => ?_
  have hlegal := decodeInvertsEncode i ((mem_allCommands_iff i).mp hi)
  rw [h, decodeInvertsEncode j ((mem_allCommands_iff j).mp hj)] at hlegal
  exact (Verdict.legal.inj hlegal).symm

/-- An opcode below 12 other than those of `emitb` and `emits` belongs to a command without an operand (R47). -/
theorem operandlessCommand_ofNat_isSome :
    ∀ op < 12, op ≠ 9 → op ≠ 10 → (operandlessCommand (BitVec.ofNat 4 op)).isSome := by decide

/-- Settles O3: the word is its three fields, and each clause is a branch of the decoder. -/
theorem everyWordHasOneVerdict : Obligations.EveryWordHasOneVerdict := by
  unfold Obligations.EveryWordHasOneVerdict
  refine ⟨fun op rsv opnd hop hrsv hopnd => ?_,
    allCommands.map encode, nodup_words, by rw [List.length_map, length_allCommands], legal_iff_mem⟩
  intro w
  obtain ⟨hop_eq, hrsv_eq, hopnd_eq⟩ : opField w = _ ∧ rsvField w = _ ∧ opndField w = _ :=
    fields_ofNat op hrsv hopnd
  clear_value w
  have hop_nat : (opField w).toNat = op := by rw [hop_eq]; exact Nat.mod_eq_of_lt hop
  have hopnd_nat : (opndField w).toNat = opnd := by rw [hopnd_eq]; exact Nat.mod_eq_of_lt hopnd
  have hrsv_zero : rsvField w = 0#4 ↔ rsv = 0 := by rw [hrsv_eq]; exact ofNat_eq_zero_iff hrsv
  have hopnd_zero : opndField w = 0 ↔ opnd = 0 := by rw [hopnd_eq]; exact ofNat_eq_zero_iff hopnd
  refine ⟨fun h => decode_reservedOpcode (hop_nat ▸ h),
    fun h hne => decode_reservedBits (hop_nat ▸ h) (mt hrsv_zero.mp hne), ?emitb, ?emits, ?noSymbol, ?badOperand,
    ?operandless⟩
  case emitb =>
    rintro rfl h0
    rw [decode_emitb hop_eq (hrsv_zero.mpr h0), hopnd_eq]
  case emits =>
    rintro rfl h0 hs
    rw [decode_emits hop_eq (hrsv_zero.mpr h0) (hopnd_nat ▸ hs), hopnd_eq,
      ← BitVec.setWidth_eq_extractLsb' (by decide), BitVec.setWidth_ofNat_of_le (by decide)]
  case noSymbol =>
    rintro rfl h0 hs
    exact decode_emits_badOperand hop_eq (hrsv_zero.mpr h0) (hopnd_nat ▸ hs)
  case badOperand =>
    intro hlt h9 h10 h0 hz
    obtain ⟨i, hi⟩ := Option.isSome_iff_exists.mp (operandlessCommand_ofNat_isSome op hlt h9 h10)
    rw [decode_operandless (hop_eq ▸ hi) (hrsv_zero.mpr h0), if_neg (mt hopnd_zero.mp hz)]
  case operandless =>
    intro h0 hz
    have hlegal {i : Instr} (hi : operandlessCommand (BitVec.ofNat 4 op) = some i) : decode w = .legal i := by
      rw [decode_operandless (hop_eq ▸ hi) (hrsv_zero.mpr h0), if_pos (hopnd_zero.mpr hz)]
    refine ⟨?_, ?_, ?_, ?_, ?_, ?_, ?_, ?_, ?_, ?_⟩ <;> (rintro rfl; exact hlegal rfl)

/-! ### The sample words (R47) -/

/-- Settles O4: the legal samples are words of commands, and the other two are in branches of their own. -/
theorem sampleWordsDecodeAsTheMapSays : Obligations.SampleWordsDecodeAsTheMapSays := by
  unfold Obligations.SampleWordsDecodeAsTheMapSays
  exact ⟨decodeInvertsEncode .nop rfl, decodeInvertsEncode .encFan rfl, decodeInvertsEncode .build rfl,
    decodeInvertsEncode (.emitb 0xA5) rfl, decodeInvertsEncode (.emits 5) rfl, decodeInvertsEncode .render rfl,
    decode_emits_badOperand rfl rfl (by decide), decode_reservedOpcode (by decide)⟩

/-! ### The hand-built render (R58) -/

/-- The schedules of a hand-built render, one after the other, are the sequence of R101; no `emitb` or `emits` takes
its schedule from the state. -/
theorem handRender_flatMap_schedOf (F : List Byte) (s : State) :
    ((handRender F).flatMap fun i => schedOf i s) = renderSeq F := by
  simp only [handRender, List.flatMap_append, List.flatMap_map]
  rfl

/-- The commands of a hand-built render are `emitb` and well-formed `emits` commands (R58). -/
theorem mem_handRender {F : List Byte} {i : Instr} (h : i ∈ handRender F) :
    (∃ b, i = .emitb b) ∨ ∃ c, i = .emits c ∧ (Instr.emits c).wf = true := by
  have key : ∀ i ∈ handRender F, (∃ b, i = .emitb b) ∨ ∃ c, i = .emits c ∧ (Instr.emits c).wf = true := by
    simp [handRender, or_imp, forall_and, Instr.wf]
  exact key i h

/-- The transaction of such a command hands over its schedule and changes nothing (R108, R109). -/
theorem transact_of_mem_handRender {F : List Byte} {i : Instr} (h : i ∈ handRender F) (S : Settings) (d : Int)
    (v : Visible) (s : State) : transact (encode i) S d v = ⟨v, stamp (schedOf i s), none⟩ := by
  unfold transact
  rcases mem_handRender h with ⟨b, rfl⟩ | ⟨c, rfl, hc⟩
  · rw [decodeInvertsEncode (.emitb b) rfl]
    rfl
  · rw [decodeInvertsEncode (.emits c) hc]
    rfl

/-- Only `sym_last` depends on where a symbol stands in its schedule (R107). -/
theorem map_symbolValue_stamp (ys : List PulseSym) :
    (stamp ys).map SymOut.symbolValue = ys.map fun y => (y.code, symRom y) := by
  induction ys using stamp.induct with
  | case1 => rfl
  | case2 y => rfl
  | case3 y z ys ih => exact congrArg (List.cons _) ih

/-- Settles O48: each command yields its schedule, and symbol values do not depend on where a schedule ends. -/
theorem handBuiltRenderGivesTheSameSymbols : Obligations.HandBuiltRenderGivesTheSameSymbols := by
  unfold Obligations.HandBuiltRenderGivesTheSameSymbols
  intro F S d v
  have hyield {i : Instr} (hi : i ∈ handRender F) := transact_of_mem_handRender hi S d v State.reset
  refine ⟨?_, fun i hi => by simp [hyield hi]⟩
  calc ((handRender F).flatMap fun i => (transact (encode i) S d v).syms).map SymOut.symbolValue
      = ((handRender F).flatMap fun i => stamp (schedOf i State.reset)).map SymOut.symbolValue := by
        rw [List.flatMap_congr fun i hi => by rw [hyield hi]]
    _ = ((handRender F).flatMap fun i => schedOf i State.reset).map fun y => (y.code, symRom y) := by
        simp only [List.map_flatMap, map_symbolValue_stamp]
    _ = (stamp (renderSeq F)).map SymOut.symbolValue := by
        rw [handRender_flatMap_schedOf, map_symbolValue_stamp]

/-! ### A line and its parts (R56) -/

/-- A part of a line: it is not empty, and no blank and no comment sign stands in it. -/
def isPart (l : List Char) : Bool := !l.isEmpty && l.all fun c => !isBlank c && c != ';'

theorem isPart_iff {l : List Char} :
    isPart l = true ↔ l ≠ [] ∧ (∀ c ∈ l, isBlank c = false) ∧ ∀ c ∈ l, c ≠ ';' := by
  simp [isPart, forall_and]

theorem splitBy_ne_nil (p : Char → Bool) (l : List Char) : splitBy p l ≠ [] := by
  cases l with
  | nil => nofun
  | cons c cs =>
    unfold splitBy
    split
    · nofun
    · split <;> nofun

theorem splitBy_cons_sep {p : Char → Bool} {c : Char} (hc : p c = true) (l : List Char) :
    splitBy p (c :: l) = [] :: splitBy p l := by
  cases h : splitBy p l with
  | nil => exact absurd h (splitBy_ne_nil p l)
  | cons w ws => simp [splitBy, h, hc]

theorem splitBy_of_none {p : Char → Bool} {l : List Char} (h : ∀ c ∈ l, p c = false) : splitBy p l = [l] := by
  induction l with
  | nil => rfl
  | cons c cs ih =>
    obtain ⟨hc, hcs⟩ := List.forall_mem_cons.mp h
    simp [splitBy, ih hcs, hc]

/-- The text before the first separator is the first piece. -/
theorem splitBy_append_sep {p : Char → Bool} {l : List Char} {c : Char} (h : ∀ a ∈ l, p a = false)
    (hc : p c = true) (r : List Char) : splitBy p (l ++ c :: r) = l :: splitBy p r := by
  induction l with
  | nil => exact splitBy_cons_sep hc r
  | cons a l ih =>
    obtain ⟨ha, hl⟩ := List.forall_mem_cons.mp h
    simp [splitBy, ih hl, ha]

theorem tokens_part {m : List Char} (hm : isPart m = true) : tokens m = [m] := by
  obtain ⟨hne, hblank, -⟩ := isPart_iff.mp hm
  simp [tokens, splitBy_of_none hblank, hne]

theorem tokens_parts {m t : List Char} (hm : isPart m = true) (ht : isPart t = true) :
    tokens (m ++ ' ' :: t) = [m, t] := by
  obtain ⟨hne, hblank, -⟩ := isPart_iff.mp hm
  obtain ⟨hne', hblank', -⟩ := isPart_iff.mp ht
  have hsplit := splitBy_append_sep hblank (c := ' ') (by decide) t
  simp [tokens, hsplit, splitBy_of_none hblank', hne, hne']

/-- A line without a comment whose first part is not `.set` is a command's, or an error (R56). -/
theorem assembleLine_of_tokens (W : Nat) {l m : List Char} {ts : List (List Char)} (hl : ∀ c ∈ l, c ≠ ';')
    (ht : tokens l = m :: ts) (hm : m ≠ ".set".toList) :
    assembleLine W l = (readCommand (m :: ts)).map AsmLine.command := by
  have hstrip : stripComment l = l := List.takeWhile_eq_self_iff.mpr (by simpa using hl)
  simp only [assembleLine, hstrip, ht, if_neg hm]

/-! ### Mnemonics and operands are read back (R56) -/

theorem isPart_mnemonicText (i : Instr) : isPart (mnemonicText i) = true := by cases i <;> rfl

theorem mnemonicText_ne_set (i : Instr) : mnemonicText i ≠ ".set".toList := by
  cases i
  case emitb => exact (by decide : "emitb".toList ≠ ".set".toList)
  case emits => exact (by decide : "emits".toList ≠ ".set".toList)
  all_goals decide

theorem assembleLine_mnemonicText (W : Nat) (i : Instr) :
    assembleLine W (mnemonicText i) = (readCommand [mnemonicText i]).map AsmLine.command := by
  have hm := isPart_mnemonicText i
  obtain ⟨-, -, hcomment⟩ := isPart_iff.mp hm
  exact assembleLine_of_tokens W hcomment (tokens_part hm) (mnemonicText_ne_set i)

theorem assembleLine_mnemonicText_append (W : Nat) (i : Instr) {t : List Char} (ht : isPart t = true) :
    assembleLine W (mnemonicText i ++ ' ' :: t) = (readCommand [mnemonicText i, t]).map AsmLine.command := by
  have hm := isPart_mnemonicText i
  obtain ⟨-, -, hcomment⟩ := isPart_iff.mp hm
  obtain ⟨-, -, hcomment'⟩ := isPart_iff.mp ht
  refine assembleLine_of_tokens W ?_ (tokens_parts hm ht) (mnemonicText_ne_set i)
  simp only [List.forall_mem_append, List.forall_mem_cons]
  exact ⟨hcomment, by decide, hcomment'⟩

theorem readCommand_mnemonicText :
    ∀ i ∈ operandlessCommands, readCommand [mnemonicText i] = some i := by decide

theorem readCommand_emitb (b : Byte) (t : List Char) :
    readCommand [mnemonicText (.emitb b), t] = (readByteOperand t).map Instr.emitb := rfl

theorem readCommand_emits (c : SymCode) (t : List Char) :
    readCommand [mnemonicText (.emits c), t] = (readSymOperand t).map Instr.emits := rfl

theorem digitValue_hexDigitUpper : ∀ n < 16, digitValue (hexDigitUpper n) = some n := by decide

theorem hexDigitUpper_not_separator :
    ∀ n < 16, isBlank (hexDigitUpper n) = false ∧ hexDigitUpper n ≠ ';' := by decide

/-- The operand of `emitb` in the listing form: `0x` and two digits (log 17). -/
def byteOperandText (b : Byte) : List Char :=
  ['0', 'x', hexDigitUpper (b.toNat / 16), hexDigitUpper (b.toNat % 16)]

theorem operandText_emitb (b : Byte) : operandText (.emitb b) = ' ' :: byteOperandText b := rfl

theorem readNat_byteOperandText (b : Byte) : readNat (byteOperandText b) = some b.toNat := by
  have hhi := digitValue_hexDigitUpper (b.toNat / 16) (by omega)
  have hlo := digitValue_hexDigitUpper (b.toNat % 16) (by omega)
  simp only [byteOperandText, readNat, readDigits, hhi, hlo]
  rw [if_pos (by omega), if_pos (by omega), Nat.zero_mul, Nat.zero_add, Nat.div_add_mod']

theorem readByteOperand_byteOperandText (b : Byte) : readByteOperand (byteOperandText b) = some b := by
  simp [readByteOperand, readNat_byteOperandText, Nat.le_of_lt_succ b.isLt]

theorem isPart_byteOperandText (b : Byte) : isPart (byteOperandText b) = true := by
  obtain ⟨hhi, hhi'⟩ := hexDigitUpper_not_separator (b.toNat / 16) (by omega)
  obtain ⟨hlo, hlo'⟩ := hexDigitUpper_not_separator (b.toNat % 16) (by omega)
  simp only [isPart_iff, byteOperandText, List.forall_mem_cons]
  exact ⟨nofun, ⟨by decide, by decide, hhi, hlo, nofun⟩, ⟨by decide, by decide, hhi', hlo', nofun⟩⟩

theorem isPart_symNameText (y : PulseSym) : isPart (symNameText y) = true := by cases y <;> decide

theorem readSymOperand_symNameText (y : PulseSym) : readSymOperand (symNameText y) = some y.code := by
  cases y <;> decide

/-- Settles O49: the line's parts are the mnemonic and the operand, and each is read back. -/
theorem assemblerReadsBackEverySourceLine : Obligations.AssemblerReadsBackEverySourceLine := by
  unfold Obligations.AssemblerReadsBackEverySourceLine
  intro W i hi
  cases i
  case emitb b =>
    rw [sourceLine, operandText_emitb, assembleLine_mnemonicText_append W _ (isPart_byteOperandText b),
      readCommand_emitb, readByteOperand_byteOperandText, Option.map_some, Option.map_some]
  case emits c =>
    obtain ⟨y, -, rfl⟩ := (exists_code_iff_wf c).mpr hi
    simp only [sourceLine, operandText, symOfCode_code]
    rw [assembleLine_mnemonicText_append W _ (isPart_symNameText y), readCommand_emits,
      readSymOperand_symNameText, Option.map_some, Option.map_some]
  all_goals
    rw [sourceLine, operandText, List.append_nil, assembleLine_mnemonicText,
      readCommand_mnemonicText _ (by decide), Option.map_some]

end Sys2Proof.Machine

/-! # The command cycle (40_command_cycle.md): what one edge does, progress, the transaction view and completion

The single edges follow from the laws of the step. The two long statements each rest on one measure of a state:
what the command in progress still owes its transaction, which no edge changes, and how many edges it may still
need, which every unhindered edge lowers. -/

namespace Sys2Proof.Machine

/-! ### Single edges (O5, O6, O8, O11, O17) -/

/-- Settles O5: neither in such an EXEC nor in EMIT is the edge free of a command. -/
theorem stepRunsTheCommandInCur : Obligations.StepRunsTheCommandInCur := by
  unfold Obligations.StepRunsTheCommandInCur
  intro s i hr hp hd
  exact step_of_legal (commandFreeEdge_none_iff.mpr ⟨hr, hp⟩) hd

/-- The word of a table command is the one that decodes to it (R50). -/
theorem decode_of_decodeTableWord {nbits w : Nat} {i : Instr} (h : decodeTableWord nbits w = some i) :
    decode (BitVec.ofNat 16 (w % 2 ^ nbits)) = .legal i := by
  unfold decodeTableWord at h
  split_ifs at h
  cases hd : decode (BitVec.ofNat 16 (w % 2 ^ nbits)) with
  | legal j => rw [hd] at h; exact congrArg Verdict.legal (Option.some.inj h)
  | illegal why => rw [hd] at h; cases h

/-- Settles O6: an issued command is in EXEC with nothing to wait for, and its word is in CUR. -/
theorem issuedWordRunsAtTheNextStep : Obligations.IssuedWordRunsAtTheNextStep := by
  unfold Obligations.IssuedWordRunsAtTheNextStep
  intro s nbits w i h
  exact stepRunsTheCommandInCur _ i rfl (.inl ⟨rfl, rfl⟩) (decode_of_decodeTableWord h)

/-- The acceptance edge loads the command and lets the next cycle in (R14, R59). -/
theorem step_of_acceptance {s : State} (hp : s.phase = .idle) (hr : s.now.rst = false)
    (hv : s.now.cmdValid = true) : step s = .next (advance (accept s)) := by
  rw [step_idle hp, hr, idleEdge, hv, (cmdReady_eq_true_iff s).mpr ⟨hr, hp⟩]
  rfl

/-- In a busy block `cmd_ready` is 0 (R14). -/
theorem cmdReady_of_busy {s : State} (h : s.phase ≠ .idle) : s.cmdReady = false :=
  Bool.eq_false_iff.mpr fun hready => h ((cmdReady_eq_true_iff s).mp hready).2

/-- Settles O8: the registers are those of `accept`, and a delay of `P_DELAY_W` bits is latched unchanged. -/
theorem acceptanceLoadsTheCommand : Obligations.AcceptanceLoadsTheCommand := by
  unfold Obligations.AcceptanceLoadsTheCommand
  intro s hr hv hready
  obtain ⟨-, hp⟩ := (cmdReady_eq_true_iff s).mp hready
  have hclosed : (advance (accept s)).cmdReady = false := cmdReady_of_busy nofun
  exact ⟨_, step_of_acceptance hp hr hv, rfl, rfl, rfl, rfl, rfl, Nat.mod_eq_of_lt, rfl, rfl, rfl, hclosed,
    rfl, rfl, rfl, rfl, rfl, rfl, fun _ => rfl, rfl, rfl, rfl⟩

/-- Settles O11: it is an edge without a command that changes no register. -/
theorem execLastsWhileItsLatencyRuns : Obligations.ExecLastsWhileItsLatencyRuns := by
  unfold Obligations.ExecLastsWhileItsLatencyRuns
  exact fun s hp hr hw => step_of_execWait hr hp hw

/-- Settles O17: the end of EXEC of `nop` is the completion. -/
theorem nopCompletesWithNoEffect : Obligations.NopCompletesWithNoEffect := by
  unfold Obligations.NopCompletesWithNoEffect
  exact ⟨rfl, fun s hp => exec_exec .nop hp⟩

/-! ### Progress: every edge has its next state (O57) -/

/-- In EMIT the invariant's SEQ_IDX is inside the schedule of a legal command in CUR (R26). -/
theorem State.Inv.legal_of_emit {s : State} (h : s.Inv) (hp : s.phase = .emit) :
    ∃ i, decode s.cur = .legal i ∧ s.seqIdx.toNat < (schedOf i s).length := by
  have hlt := h.seqIdx_lt hp
  cases hd : decode s.cur with
  | legal i => exact ⟨i, rfl, sched_of_legal hd ▸ hlt⟩
  | illegal why => simp [sched_of_illegal hd] at hlt

/-- A state with the invariant has a next state. -/
theorem State.Inv.step_next {s : State} (h : s.Inv) : ∃ t, step s = .next t := by
  cases hf : commandFreeEdge s with
  | some u => exact ⟨_, step_of_commandFree hf⟩
  | none =>
    obtain ⟨hr, ⟨hp, hw⟩ | hp⟩ := commandFreeEdge_none_iff.mp hf
    · exact ⟨_, step_of_execEnd hr hp hw⟩
    · obtain ⟨i, hd, hlt⟩ := h.legal_of_emit hp
      obtain ⟨u, hu⟩ := emitEdge_next hlt
      rw [step_of_legal hf hd, exec_emit hp hlt, hu]
      exact ⟨_, rfl⟩

theorem run_succ_of_step {s t : State} (h : step s = .next t) (n : Nat) : run (n + 1) s = run n t := by
  rw [run, h]

/-- Settles O57: by induction on the number of edges, as each edge has a next state and keeps the invariant. -/
theorem invariantStatesNeverStop : Obligations.InvariantStatesNeverStop := by
  unfold Obligations.InvariantStatesNeverStop
  intro s h n
  induction n generalizing s with
  | zero => exact ⟨s, rfl⟩
  | succ n ih =>
    obtain ⟨t, ht⟩ := h.step_next
    rw [run_succ_of_step ht]
    exact ih t (everyStepKeepsTheInvariant s t h ht)

/-! ### A stamped schedule (R107) -/

/-- The stamped schedule holds at each index what the stream carries there (R106, R107). -/
theorem getElem?_stamp (sched : List PulseSym) (i : Nat) : (stamp sched)[i]? = symAt sched i := by
  induction sched using stamp.induct generalizing i with
  | case1 => rfl
  | case2 y => cases i <;> rfl
  | case3 y z ys ih =>
    cases i with
    | zero => rfl
    | succ i =>
      rw [stamp, List.getElem?_cons_succ, ih]
      simp [symAt]

/-- The symbol at an index comes first of those that are left from there on. -/
theorem drop_stamp_of_symAt {sched : List PulseSym} {i : Nat} {y : SymOut} (h : symAt sched i = some y) :
    (stamp sched).drop i = y :: (stamp sched).drop (i + 1) := by
  rw [← getElem?_stamp] at h
  obtain ⟨hi, rfl⟩ := List.getElem?_eq_some_iff.mp h
  exact List.drop_eq_getElem_cons hi

theorem lt_of_symAt {sched : List PulseSym} {i : Nat} {y : SymOut} (h : symAt sched i = some y) :
    i < sched.length := symAt_isSome_iff.mp (by simp [h])

/-- `sym_last` marks the last index of the schedule (R107). -/
theorem last_of_symAt {sched : List PulseSym} {i : Nat} {y : SymOut} (h : symAt sched i = some y) :
    y.last = decide (i + 1 = sched.length) := by
  obtain ⟨x, -, rfl⟩ := symAt_eq_some_iff.mp h
  rfl

/-- Nothing is left after the symbol with `sym_last`. -/
theorem drop_stamp_of_last {sched : List PulseSym} {i : Nat} {y : SymOut} (h : symAt sched i = some y)
    (hl : y.last = true) : (stamp sched).drop (i + 1) = [] := by
  have hlen : i + 1 = sched.length := of_decide_eq_true (last_of_symAt h ▸ hl)
  rw [List.drop_eq_nil_iff, ← List.getElem?_eq_none_iff, getElem?_stamp, hlen]
  simp [symAt]

/-- `sched(CUR)` is not longer than a render, whatever word is in CUR (R102, R104). -/
theorem sched_length_le (s : State) : s.sched.length ≤ Config.renderN := by
  cases hd : decode s.cur with
  | legal i => exact sched_of_legal hd ▸ schedOf_length_le i s
  | illegal why => simp [sched_of_illegal hd]

/-- SEQ_IDX moves on by 1 without wrapping inside a schedule (R26, R102). -/
theorem seqIdx_succ_toNat {s : State} (h : s.seqIdx.toNat < s.sched.length) :
    (s.seqIdx + 1#9).toNat = s.seqIdx.toNat + 1 := by
  have hlen : s.sched.length ≤ 276 := sched_length_le s
  rw [BitVec.toNat_add, BitVec.toNat_ofNat]
  omega

/-! ### What a command still owes its transaction (O58) -/

/-- The symbols that the command in progress has yet to hand over once its EXEC has ended (R106). -/
def State.symsLeft (s : State) : List SymOut :=
  if s.phase = .emit then (stamp s.sched).drop s.seqIdx.toNat else []

/-- What the command in progress yields from here on (R64): in EXEC its whole transaction; after it the registers
as they are, with the symbols left and the error that STATUS reports. -/
def State.yieldLeft (s : State) : Yield :=
  if s.phase = .exec then transact s.cur s.set s.delay s.visible
  else ⟨s.visible, s.symsLeft, s.reportedErr⟩

/-- What the command in progress yields, after the symbols that the sink has accepted already. -/
def State.fullYield (s : State) : Yield := { s.yieldLeft with syms := s.sink ++ s.yieldLeft.syms }

theorem yieldLeft_of_exec {s : State} (hp : s.phase = .exec) :
    s.yieldLeft = transact s.cur s.set s.delay s.visible := if_pos hp

theorem yieldLeft_of_not_exec {s : State} (hp : s.phase ≠ .exec) :
    s.yieldLeft = ⟨s.visible, s.symsLeft, s.reportedErr⟩ := if_neg hp

theorem symsLeft_of_emit {s : State} (hp : s.phase = .emit) :
    s.symsLeft = (stamp s.sched).drop s.seqIdx.toNat := if_pos hp

theorem symsLeft_of_idle {s : State} (hp : s.phase = .idle) : s.symsLeft = [] := if_neg (by simp [hp])

@[simp] theorem symsLeft_startEmit (s : State) : (startEmit s).symsLeft = stamp (startEmit s).sched :=
  symsLeft_of_emit rfl

/-- A completed command's yield is in the registers and in the sink (R62, R64). -/
theorem fullYield_of_idle {s : State} (hp : s.phase = .idle) : s.fullYield = ⟨s.visible, s.sink, s.reportedErr⟩ := by
  rw [State.fullYield, yieldLeft_of_not_exec (by simp [hp]), symsLeft_of_idle hp, List.append_nil]

/-- The passing of a cycle yields nothing (log 1). -/
@[simp] theorem fullYield_advance (s : State) : (advance s).fullYield = s.fullYield := rfl

/-! ### The end of EXEC agrees with the transaction -/

/-- A state agrees with a transaction in its registers and in the symbols it will hand over. -/
def State.Agrees (s : State) (y : Yield) : Prop := s.visible = y.after ∧ s.symsLeft = y.syms

theorem encEffect_agrees {n : Nat} (r : Except Err (BitVec n)) (s : State) :
    (encEffect r s).Agrees (encYield r s.visible) := by
  cases r <;> exact ⟨rfl, rfl⟩

theorem buildThen_agrees {f : State → State} {s : State} {syms : List Byte → List SymOut}
    (hf : ∀ u, (f u).visible = u.visible)
    (hsyms : ∀ F, buildCommand s.set s.delay = .ok F → (f (storeFrame F s)).symsLeft = syms F) :
    (buildThen f s).Agrees (buildYield syms (buildCommand s.set s.delay) s.visible) := by
  cases h : buildCommand s.set s.delay with
  | ok F => rw [buildThen_ok f h]; exact ⟨hf _, hsyms F h⟩
  | error e => rw [buildThen_error f h]; exact ⟨rfl, rfl⟩

/-- `render` goes on to emit the symbols of the frame it has stored (R110). -/
theorem symsLeft_startRender {s : State} {F : List Byte} (hd : decode s.cur = .legal .render)
    (hF : buildCommand s.set s.delay = .ok F) : (startEmit (storeFrame F s)).symsLeft = stamp (renderSeq F) := by
  rw [symsLeft_startEmit, sched_of_legal (s := startEmit (storeFrame F s)) hd, schedOf, startEmit_frame,
    storeFrame_frame, frameBytes_writeBytes _ _ (buildCommand_length hF)]

theorem execEnd_agrees_of_enc {s : State} {i : Instr} (hi : i ∈ encCommands) (hd : decode s.cur = .legal i) :
    (execEnd i s).Agrees (transact s.cur s.set s.delay s.visible) := by
  obtain ⟨n, r, hr, -, -, hy⟩ := execEnd_of_enc hi s
  rw [hr, hy hd]
  exact encEffect_agrees r s

theorem execEnd_agrees {s : State} {i : Instr} (hd : decode s.cur = .legal i) :
    (execEnd i s).Agrees (transact s.cur s.set s.delay s.visible) := by
  cases i
  case nop => simp only [transact, hd]; exact ⟨rfl, rfl⟩
  case build => simp only [transact, hd]; exact buildThen_agrees complete_visible fun _ _ => rfl
  case render =>
    simp only [transact, hd]
    exact buildThen_agrees startEmit_visible fun F hF => symsLeft_startRender hd hF
  case emitb b =>
    simp only [transact, hd]
    refine ⟨rfl, ?_⟩
    rw [execEnd, symsLeft_startEmit, sched_of_legal (s := startEmit s) hd, schedOf]
  case emits c =>
    obtain ⟨y, hy⟩ := symOfCode_of_wf (wf_of_decode hd)
    simp only [transact, hd, execEnd, startEmits, hy]
    refine ⟨rfl, ?_⟩
    rw [symsLeft_startEmit, sched_of_legal (s := startEmit s) hd, schedOf, hy]
  all_goals exact execEnd_agrees_of_enc (by simp [encCommands]) hd

/-- The end of EXEC passes no symbol, and the ports are not the block's (logs 1, 6). -/
theorem ExecEnds.surroundings {s u : State} {i : Instr} (h : ExecEnds s i u) :
    u.sink = s.sink ∧ u.now = s.now ∧ u.later = s.later ∧ u.rest = s.rest := by
  cases h <;> exact ⟨rfl, rfl, rfl, rfl⟩

theorem execEnd_phase_ne_exec (i : Instr) (s : State) : (execEnd i s).phase ≠ .exec := by
  rcases (execEnd_ends i s).lifecycle with ⟨hp, -⟩ | ⟨hp, -⟩ <;> simp [hp]

/-- At the end of EXEC the command owes what its transaction yields (R60, R64). -/
theorem execEnd_fullYield {s : State} {i : Instr} (hp : s.phase = .exec) (hk : s.errKind = .none)
    (hd : decode s.cur = .legal i) : (execEnd i s).fullYield = s.fullYield := by
  obtain ⟨hvisible, hsyms⟩ := execEnd_agrees hd
  rw [State.fullYield, State.fullYield, (execEnd_ends i s).surroundings.1, yieldLeft_of_exec hp,
    yieldLeft_of_not_exec (execEnd_phase_ne_exec i s), hvisible, hsyms, execEnd_reportedErr hk hd]

/-- An illegal word yields its error and nothing else (R116). -/
theorem raiseIllegal_fullYield {s : State} {why : Illegal} (hp : s.phase = .exec)
    (hd : decode s.cur = .illegal why) :
    (raiseError (illegalCommandErr why s.cur) s).fullYield = s.fullYield := by
  have hy : transact s.cur s.set s.delay s.visible =
      ⟨s.visible, [], some (illegalCommandErr why s.cur)⟩ := by simp only [transact, hd]
  have herr : (raiseError (illegalCommandErr why s.cur) s).reportedErr = _ :=
    reportedErr_raiseError (illegalCommand_reportable _) s
  rw [fullYield_of_idle rfl, herr, State.fullYield, yieldLeft_of_exec hp, hy, List.append_nil]
  rfl

/-! ### No edge changes what the command yields -/

/-- In EMIT the yield is in the registers, but for the symbols left. -/
theorem fullYield_of_emit {s : State} (hp : s.phase = .emit) :
    s.fullYield = ⟨s.visible, s.sink ++ (stamp s.sched).drop s.seqIdx.toNat, s.reportedErr⟩ := by
  rw [State.fullYield, yieldLeft_of_not_exec (by simp [hp]), symsLeft_of_emit hp]

/-- A handshake moves the first of the symbols left into the sink, any other edge of the loop moves none (R106). -/
theorem emitEdge_fullYield {s u : State} (hp : s.phase = .emit) (h : emitEdge s.sched s = .next u) :
    u.fullYield = s.fullYield := by
  rw [fullYield_of_emit hp]
  obtain ⟨y, hy, ⟨-, rfl⟩ | ⟨-, -, rfl⟩ | ⟨-, -, hlast, rfl⟩ | ⟨-, -, -, rfl⟩⟩ := emitEdge_cases h
  · exact fullYield_of_emit hp
  · exact fullYield_of_emit hp
  · rw [fullYield_of_idle rfl, drop_stamp_of_symAt hy, drop_stamp_of_last hy hlast]
    rfl
  · rw [drop_stamp_of_symAt hy, List.append_cons _ y (List.drop _ _), ← seqIdx_succ_toNat (lt_of_symAt hy)]
    refine fullYield_of_emit ?_
    exact hp

/-- An edge at which a command is in progress keeps what the command yields (R64). -/
theorem step_fullYield {s t : State} (h : step s = .next t) (hr : s.now.rst = false) (hb : s.busy = true)
    (hk : s.errKind = .none) : t.fullYield = s.fullYield := by
  have hbusy := (busy_eq_true_iff s).mp hb
  obtain ⟨u, rfl, hu⟩ := step_cases h
  rw [fullYield_advance]
  rcases hu with ⟨hr', -⟩ | ⟨-, hp, -⟩ | ⟨-, hp, -⟩ | ⟨-, -, -, rfl⟩ |
    ⟨-, hp, -, ⟨i, hd, rfl⟩ | ⟨why, hd, rfl⟩⟩ | ⟨-, hp, i, hd, hu⟩
  · simp [hr] at hr'
  · exact absurd hp hbusy
  · exact absurd hp hbusy
  · rfl
  · exact execEnd_fullYield hp hk hd
  · exact raiseIllegal_fullYield hp hd
  · rw [← sched_of_legal hd] at hu
    exact emitEdge_fullYield hp hu

/-! ### Runs of a command -/

/-- A run of a command goes on from the next state of its first edge, at which BUSY is 1 and `rst` is 0. -/
theorem runCommand_succ_iff {n : Nat} {s t : State} :
    runCommand (n + 1) s = some t ↔
      s.busy = true ∧ s.now.rst = false ∧ ∃ u, step s = .next u ∧ runCommand n u = some t := by
  rw [runCommand]
  cases s.busy <;> cases s.now.rst <;> cases step s <;> simp

/-- Outside reset a command in progress completes or goes on without an error (R62). -/
theorem step_of_busy {s t : State} (h : step s = .next t) (hr : s.now.rst = false) (hb : s.busy = true) :
    (t.phase = .idle ∧ t.done = true) ∨ (t.busy = true ∧ t.errKind = s.errKind) := by
  rcases step_lifecycle h hr with ⟨hs, -⟩ | ⟨hs, -⟩ | ⟨-, htb, hdone⟩ | ⟨-, htb, -, hk, -⟩
  · simp [hb] at hs
  · simp [hb] at hs
  · exact .inl ⟨by simpa [State.busy] using htb, hdone⟩
  · exact .inr ⟨htb, hk⟩

/-- A run of a command to its completion keeps what the command yields and ends with DONE = 1 (R62, R64). -/
theorem runCommand_fullYield {n : Nat} {s t : State} (h : runCommand n s = some t) (hb : s.busy = true)
    (hk : s.errKind = .none) (hidle : t.phase = .idle) : t.fullYield = s.fullYield ∧ t.done = true := by
  induction n generalizing s with
  | zero =>
    cases h
    exact absurd hidle ((busy_eq_true_iff _).mp hb)
  | succ n ih =>
    obtain ⟨-, hr, u, hu, hrun⟩ := runCommand_succ_iff.mp h
    rw [← step_fullYield hu hr hb hk]
    rcases step_of_busy hu hr hb with ⟨hup, hdone⟩ | ⟨hub, huk⟩
    · cases n with
      | zero => cases hrun; exact ⟨rfl, hdone⟩
      | succ n => simp [runCommand_succ_iff, State.busy, hup] at hrun
    · exact ih hrun hub (huk.trans hk)

/-- A transaction reads the delay as its argument, not in the Settings, so latching does not change it (R64). -/
theorem transact_latch (w : CmdWord) (W : Nat) (S : Settings) (d : Int) (v : Visible) :
    transact w (S.latch W) d v = transact w S d v := rfl

/-- An accepted command is to yield the transaction of its word on the Settings of the port (R59, R64). -/
theorem yieldLeft_accept (s : State) : (accept s).yieldLeft =
    transact s.now.cmdWord s.now.settings (sintOfWidth s.pDelayW s.now.settings.delay) s.visible := by
  rw [yieldLeft_of_exec rfl, accept_delay]
  exact transact_latch ..

/-- Settles O58: at acceptance the command owes its transaction, and no edge of its run changes what it yields. -/
theorem everyRunOfACommandIsItsTransaction : Obligations.EveryRunOfACommandIsItsTransaction := by
  unfold Obligations.EveryRunOfACommandIsItsTransaction
  intro s s1 t n hp hr hv hstep hrun hidle y
  rw [step_of_acceptance hp hr hv] at hstep
  cases hstep
  obtain ⟨hyield, hdone⟩ := runCommand_fullYield hrun rfl rfl hidle
  have hfull : Yield.mk t.visible t.sink t.reportedErr = { y with syms := s.sink ++ y.syms } := by
    rw [← fullYield_of_idle hidle, hyield, fullYield_advance, State.fullYield, yieldLeft_accept]
    rfl
  obtain ⟨hvisible, hsink, herr⟩ := Yield.mk.inj hfull
  exact ⟨hvisible, hsink, herr, hdone⟩

/-! ### An unhindered command completes (O59) -/

/-- The ports of the cycles to come are not the block's: an edge only lets the next cycle in (log 1). -/
theorem step_cycleAt {s t : State} (h : step s = .next t) (k : Nat) : t.cycleAt k = s.cycleAt (k + 1) := by
  obtain ⟨u, rfl, hu⟩ := step_cases h
  obtain ⟨hnow, hlater, hrest⟩ : u.now = s.now ∧ u.later = s.later ∧ u.rest = s.rest := by
    rcases hu with ⟨-, rfl⟩ | ⟨-, -, -, rfl⟩ | ⟨-, -, -, rfl⟩ | ⟨-, -, -, rfl⟩ |
      ⟨-, -, -, ⟨i, -, rfl⟩ | ⟨why, -, rfl⟩⟩ | ⟨-, -, i, -, hu⟩
    · exact ⟨rfl, rfl, rfl⟩
    · exact ⟨rfl, rfl, rfl⟩
    · exact ⟨rfl, rfl, rfl⟩
    · exact ⟨rfl, rfl, rfl⟩
    · exact (execEnd_ends i s).surroundings.2
    · exact ⟨rfl, rfl, rfl⟩
    · obtain ⟨ys, p, d, q, o, rfl⟩ := emitEdge_frame hu
      exact ⟨rfl, rfl, rfl⟩
  rw [advance_cycleAt, State.cycleAt, State.cycleAt, hnow, hlater, hrest]

/-- The edges that a command in progress may still need when nothing holds it back. -/
def State.edgesLeft (s : State) : Nat :=
  match s.phase with
  | .idle => 0
  | .exec => unhinderedBound
  | .emit => (!s.offer).toNat + (s.sched.length - s.seqIdx.toNat)

theorem edgesLeft_of_idle {s : State} (hp : s.phase = .idle) : s.edgesLeft = 0 := by
  unfold State.edgesLeft; rw [hp]

theorem edgesLeft_of_exec {s : State} (hp : s.phase = .exec) : s.edgesLeft = unhinderedBound := by
  unfold State.edgesLeft; rw [hp]

theorem edgesLeft_of_emit {s : State} (hp : s.phase = .emit) :
    s.edgesLeft = (!s.offer).toNat + (s.sched.length - s.seqIdx.toNat) := by
  unfold State.edgesLeft; rw [hp]

theorem edgesLeft_advance (s : State) : (advance s).edgesLeft = s.edgesLeft := rfl

theorem unhindered_iff (c : ClockCycle) :
    c.unhindered = true ↔ c.rst = false ∧ c.symReady = true ∧ c.execWait = false ∧ c.offerWait = false := by
  simp [ClockCycle.unhindered, and_assoc]

/-- The start of an emission leaves at most as many edges as a render has symbols: the first offer is up. -/
theorem edgesLeft_startEmit_lt {s : State} (ho : s.now.offerWait = false) :
    (startEmit s).edgesLeft < unhinderedBound := by
  rw [edgesLeft_of_emit rfl, startEmit_offer, startEmit_seqIdx, ho]
  exact Nat.lt_one_add_iff.mpr (by simpa using sched_length_le (startEmit s))

theorem edgesLeft_execEnd_lt (i : Instr) {s : State} (ho : s.now.offerWait = false) :
    (execEnd i s).edgesLeft < unhinderedBound := by
  have hends := execEnd_ends i s
  generalize execEnd i s = u at hends
  cases hends with
  | nop | pattern | fieldError | build | buildError | noSymbol =>
    rw [edgesLeft_of_idle rfl]
    exact Nat.succ_pos _
  | render | emitb | emits => exact edgesLeft_startEmit_lt ho

/-- Every edge of EMIT at which nothing holds the command back raises an offer or passes a symbol (R106). -/
theorem emitEdge_edgesLeft_lt {s u : State} (hp : s.phase = .emit) (ho : s.now.offerWait = false)
    (hready : s.now.symReady = true) (h : emitEdge s.sched s = .next u) :
    u.edgesLeft < s.edgesLeft := by
  rw [edgesLeft_of_emit hp]
  obtain ⟨y, hy, hu⟩ := emitEdge_cases h
  have hlt := lt_of_symAt hy
  rcases hu with ⟨hoff, rfl⟩ | ⟨-, hno, -⟩ | ⟨-, -, -, rfl⟩ | ⟨-, -, -, rfl⟩
  · rw [edgesLeft_of_emit (by exact hp), hoff, ho]
    exact Nat.add_lt_add_right Nat.zero_lt_one _
  · simp [hready] at hno
  · rw [edgesLeft_of_idle rfl]
    omega
  · rw [edgesLeft_of_emit (by exact hp), seqIdx_succ_toNat hlt, ho]
    show 0 + (s.sched.length - _) < _
    omega

/-- An unhindered edge of a command in progress leaves it fewer edges (R137, R139). -/
theorem step_edgesLeft_lt {s t : State} (h : step s = .next t) (hb : s.busy = true)
    (hc : s.now.unhindered = true) : t.edgesLeft < s.edgesLeft := by
  have hbusy := (busy_eq_true_iff s).mp hb
  obtain ⟨hr, hready, hw, ho⟩ := (unhindered_iff s.now).mp hc
  obtain ⟨u, rfl, hu⟩ := step_cases h
  rw [edgesLeft_advance]
  rcases hu with ⟨hr', -⟩ | ⟨-, hp, -⟩ | ⟨-, hp, -⟩ | ⟨-, -, hw', -⟩ |
    ⟨-, hp, -, ⟨i, hd, rfl⟩ | ⟨why, hd, rfl⟩⟩ | ⟨-, hp, i, hd, hu⟩
  · simp [hr] at hr'
  · exact absurd hp hbusy
  · exact absurd hp hbusy
  · simp [hw] at hw'
  · rw [edgesLeft_of_exec hp]
    exact edgesLeft_execEnd_lt i ho
  · rw [edgesLeft_of_exec hp, edgesLeft_of_idle rfl]
    exact Nat.succ_pos _
  · rw [← sched_of_legal hd] at hu
    exact emitEdge_edgesLeft_lt hp ho hready hu

/-- A command with at most `m` edges left completes within `m` edges. -/
theorem completes_within_edgesLeft {m : Nat} {s : State} (hinv : s.Inv) (hb : s.busy = true)
    (hc : ∀ k, (s.cycleAt k).unhindered = true) (hm : s.edgesLeft ≤ m) :
    ∃ n t, n ≤ m ∧ runCommand n s = some t ∧ t.phase = .idle ∧ t.done = true := by
  induction m generalizing s with
  | zero =>
    obtain ⟨t, ht⟩ := hinv.step_next
    have hlt := step_edgesLeft_lt ht hb (hc 0)
    omega
  | succ m ih =>
    obtain ⟨t, ht⟩ := hinv.step_next
    have hlt := step_edgesLeft_lt ht hb (hc 0)
    obtain ⟨hr, -⟩ := (unhindered_iff s.now).mp (hc 0)
    rcases step_of_busy ht hr hb with hdone | ⟨htb, -⟩
    · exact ⟨1, t, by omega, runCommand_succ_iff.mpr ⟨hb, hr, t, ht, rfl⟩, hdone⟩
    · obtain ⟨n, u, hn, hrun, hu⟩ := ih (everyStepKeepsTheInvariant s t hinv ht) htb
        (fun k => step_cycleAt ht k ▸ hc (k + 1)) (by omega)
      exact ⟨n + 1, u, by omega, runCommand_succ_iff.mpr ⟨hb, hr, t, ht, hrun⟩, hu⟩

/-- No state has more edges left than a render from the beginning of its EXEC. -/
theorem edgesLeft_le {s : State} : s.edgesLeft ≤ unhinderedBound := by
  cases hp : s.phase with
  | idle => rw [edgesLeft_of_idle hp]; exact Nat.zero_le _
  | exec => rw [edgesLeft_of_exec hp]
  | emit =>
    rw [edgesLeft_of_emit hp]
    exact Nat.add_le_add (Bool.toNat_le _) ((Nat.sub_le _ _).trans (sched_length_le s))

/-- Settles O59: no command ever has more than 277 edges left. -/
theorem unhinderedCommandCompletes : Obligations.UnhinderedCommandCompletes := by
  unfold Obligations.UnhinderedCommandCompletes
  exact fun s hinv hb hc => completes_within_edgesLeft hinv hb hc edgesLeft_le

end Sys2Proof.Machine

/-! # The field encoders and the delay encoder (41_field_encoders.md)

What an encoder answers is one thing, that an `enc.*` command writes it to RES or raises it is another: the second
is said once, for every command whose EXEC ends with an encoder's result. -/

namespace Sys2Proof.Machine

/-! ### An `enc.*` command in EXEC, by its encoder's result (R18, R62, R118) -/

section EncCommand

variable {i : Instr} {s : State} {n : Nat} {r : Except Err (BitVec n)}

/-- A pattern goes to RES, zero-extended, and the command completes. -/
theorem exec_of_pattern (hp : s.phase = .exec) (hi : execEnd i s = encEffect r s) {v : BitVec n}
    (hr : r = .ok v) :
    exec i s = .next { s with res := v.setWidth 24, phase := .idle, done := true, offer := false } := by
  rw [exec_exec i hp, hi, hr]
  rfl

/-- A pattern is the number that RES then holds. -/
theorem exec_of_pattern_toNat (hp : s.phase = .exec) (hi : execEnd i s = encEffect r s) (hn : n ≤ 24)
    {k : Int} (hr : ∃ v : BitVec n, r = .ok v ∧ (v.toNat : Int) = k) :
    ∃ w : ResWord, (w.toNat : Int) = k ∧
      exec i s = .next { s with res := w, phase := .idle, done := true, offer := false } := by
  obtain ⟨v, hv, hk⟩ := hr
  exact ⟨v.setWidth 24, by rw [BitVec.toNat_setWidth_of_le hn, hk], exec_of_pattern hp hi hv⟩

/-- An error goes to the error fields, RES keeps its value, and the command completes. -/
theorem exec_of_fieldError (hp : s.phase = .exec) (hi : execEnd i s = encEffect r s) {e : Err}
    (hr : r = .error e) :
    exec i s = .next { s with
      errKind := e.kind, errValue := e.value, phase := .idle, done := true, offer := false } := by
  rw [exec_exec i hp, hi, hr]
  rfl

end EncCommand

/-! ### The enumerated settings: `enc.mode`, `enc.pwr`, `enc.swg` (R66, R68, R70) -/

/-- The encoder of an enumerated setting: a pattern for each of the two named codes, and for the two other codes an
error of the setting's kind that carries the raw code. -/
structure EncodesNamedCodes {n : Nat} (enc : SettingCode → Except Err (BitVec n)) (v0 v1 : BitVec n)
    (kind : ErrKind) : Prop where
  zero : enc 0b00#2 = .ok v0
  one : enc 0b01#2 = .ok v1
  two : enc 0b10#2 = .error ⟨kind, 0x02#8⟩
  three : enc 0b11#2 = .error ⟨kind, 0x03#8⟩

theorem encodeMode_namedCodes : EncodesNamedCodes encodeMode 0b0011#4 0b0100#4 .invalidMode :=
  ⟨rfl, rfl, rfl, rfl⟩

theorem encodePower_namedCodes : EncodesNamedCodes encodePower 0#1 1#1 .invalidPower :=
  ⟨rfl, rfl, rfl, rfl⟩

theorem encodeSwing_namedCodes : EncodesNamedCodes encodeSwing 0b0000#4 0b1111#4 .invalidSwing :=
  ⟨rfl, rfl, rfl, rfl⟩

/-- What the command of an enumerated setting does on each of the setting's four codes. -/
theorem EncodesNamedCodes.exec_eq {n : Nat} {enc : SettingCode → Except Err (BitVec n)} {v0 v1 : BitVec n}
    {kind : ErrKind} (henc : EncodesNamedCodes enc v0 v1 kind) {i : Instr} {s : State} {c : SettingCode}
    (hp : s.phase = .exec) (hi : execEnd i s = encEffect (enc c) s) :
    (c = 0b00#2 → exec i s =
      .next { s with res := v0.setWidth 24, phase := .idle, done := true, offer := false }) ∧
    (c = 0b01#2 → exec i s =
      .next { s with res := v1.setWidth 24, phase := .idle, done := true, offer := false }) ∧
    (c = 0b10#2 → exec i s = .next { s with
      errKind := kind, errValue := 0x02#8, phase := .idle, done := true, offer := false }) ∧
    (c = 0b11#2 → exec i s = .next { s with
      errKind := kind, errValue := 0x03#8, phase := .idle, done := true, offer := false }) := by
  refine ⟨?_, ?_, ?_, ?_⟩ <;> rintro rfl
  · exact exec_of_pattern hp hi henc.zero
  · exact exec_of_pattern hp hi henc.one
  · exact exec_of_fieldError hp hi henc.two
  · exact exec_of_fieldError hp hi henc.three

/-- Settles O18: the mode is an enumerated setting. -/
theorem encModeGivesTheModePattern : Obligations.EncModeGivesTheModePattern := by
  unfold Obligations.EncModeGivesTheModePattern
  exact ⟨rfl, fun s hp => encodeMode_namedCodes.exec_eq hp rfl⟩

/-- Settles O20: the power is an enumerated setting. -/
theorem encPwrGivesThePowerBit : Obligations.EncPwrGivesThePowerBit := by
  unfold Obligations.EncPwrGivesThePowerBit
  exact ⟨rfl, fun s hp => encodePower_namedCodes.exec_eq hp rfl⟩

/-- Settles O22: the swing is an enumerated setting. -/
theorem encSwgGivesTheSwingPattern : Obligations.EncSwgGivesTheSwingPattern := by
  unfold Obligations.EncSwgGivesTheSwingPattern
  exact ⟨rfl, fun s hp => encodeSwing_namedCodes.exec_eq hp rfl⟩

/-! ### The fan and the temperature (R69, R71) -/

theorem encodeFan_auto {fan : Byte} (h : fanValue fan = 0) : encodeFan fan = .ok 0b1011#4 := if_pos h

/-- The pattern `fan + 2` of a fan speed fits the nibble. -/
theorem encodeFan_speed {fan : Byte} (h1 : 1 ≤ fanValue fan) (h5 : fanValue fan ≤ 5) :
    ∃ v : BitVec 4, encodeFan fan = .ok v ∧ (v.toNat : Int) = fanValue fan + 2 := by
  have hok : encodeFan fan = .ok (BitVec.ofInt 4 (fanValue fan + 2)) := by
    unfold encodeFan
    rw [if_neg (by omega), if_pos ⟨h1, h5⟩]
  exact ⟨_, hok, by rw [BitVec.toNat_ofInt]; omega⟩

theorem encodeFan_invalid {fan : Byte} (h : fanValue fan < 0 ∨ 5 < fanValue fan) :
    encodeFan fan = .error ⟨.invalidFan, fan⟩ := by
  unfold encodeFan
  rw [if_neg (by omega), if_neg (by omega)]

/-- Settles O21: by the three branches of the fan's encoder. -/
theorem encFanGivesTheFanPattern : Obligations.EncFanGivesTheFanPattern := by
  unfold Obligations.EncFanGivesTheFanPattern
  refine ⟨rfl, fun s hp => ⟨?_, ?_, ?_⟩⟩
  · exact fun h => exec_of_pattern hp rfl (encodeFan_auto h)
  · exact fun h1 h5 => exec_of_pattern_toNat hp rfl (by decide) (encodeFan_speed h1 h5)
  · exact fun h => exec_of_fieldError hp rfl (encodeFan_invalid h)

/-- Twice a temperature of 18 to 30 fits the byte. -/
theorem encodeTemperature_valid {temp : Byte} (h18 : 18 ≤ tempValue temp) (h30 : tempValue temp ≤ 30) :
    ∃ v : Byte, encodeTemperature temp = .ok v ∧ (v.toNat : Int) = tempValue temp * 2 :=
  ⟨_, if_pos ⟨h18, h30⟩, by rw [BitVec.toNat_ofInt]; omega⟩

theorem encodeTemperature_invalid {temp : Byte} (h : tempValue temp < 18 ∨ 30 < tempValue temp) :
    encodeTemperature temp = .error ⟨.invalidTemperature, temp⟩ := if_neg (by omega)

/-- Settles O23: by the two branches of the temperature's encoder. -/
theorem encTempGivesTwiceTheTemperature : Obligations.EncTempGivesTwiceTheTemperature := by
  unfold Obligations.EncTempGivesTwiceTheTemperature
  refine ⟨rfl, fun s hp => ⟨?_, ?_⟩⟩
  · exact fun h18 h30 => exec_of_pattern_toNat hp rfl (by decide) (encodeTemperature_valid h18 h30)
  · exact fun h => exec_of_fieldError hp rfl (encodeTemperature_invalid h)

/-! ### The timer mode (R67) -/

theorem encodeTimerMode_of_pos {d : Int} (h : 0 < d) : encodeTimerMode d = 0b01#2 := by
  unfold encodeTimerMode
  rw [if_neg h.ne', if_pos h]

theorem encodeTimerMode_of_neg {d : Int} (h : d < 0) : encodeTimerMode d = 0b10#2 := by
  unfold encodeTimerMode
  rw [if_neg h.ne, if_neg h.not_gt]

/-- `enc.tmr` writes the timer mode of the delay, whatever it is (R82). -/
theorem exec_encTmr {s : State} (hp : s.phase = .exec) {v : BitVec 2} (hv : encodeTimerMode s.delay = v) :
    exec .encTmr s =
      .next { s with res := v.setWidth 24, phase := .idle, done := true, offer := false } :=
  exec_of_pattern hp rfl (congrArg Except.ok hv)

/-- RES 3 would be the timer mode `11`. -/
theorem encTmr_res_ne {s t : State} (h : exec .encTmr s = .next t) : t.res ≠ 0x000003#24 := by
  obtain ⟨-, rfl⟩ := exec_next_of_no_sched rfl h
  have extended_ne : ∀ v : BitVec 2, v ≠ 0b11#2 → v.setWidth 24 ≠ 0x000003#24 := by decide
  exact extended_ne _ (encodeTimerMode_ne s.delay)

/-- The pattern with the top bit alone stands for the least value of the port, at every width (R9). -/
theorem sintOfWidth_topBit {W : Nat} (h : 0 < W) : sintOfWidth W (2 ^ (W - 1)) = -(2 ^ (W - 1) : Int) := by
  have hmin : BitVec.ofNat W (2 ^ (W - 1)) = BitVec.intMin W :=
    BitVec.eq_of_toNat_eq (BitVec.toNat_twoPow W (W - 1)).symm
  rw [sintOfWidth, hmin, BitVec.toInt_intMin_of_pos h]

/-- Settles O19: by the sign of the delay, which at the least value of the port is negative. -/
theorem encTmrGivesTheTimerMode : Obligations.EncTmrGivesTheTimerMode := by
  unfold Obligations.EncTmrGivesTheTimerMode
  refine ⟨rfl, fun s hp => ⟨?_, ?_, ?_⟩, fun s t h => encTmr_res_ne h, fun s hp hW hd => ?_⟩
  · exact fun h => exec_encTmr hp (if_pos h)
  · exact fun h => exec_encTmr hp (encodeTimerMode_of_pos h)
  · exact fun h => exec_encTmr hp (encodeTimerMode_of_neg h)
  · have hmin : s.delay = -(2 ^ (s.pDelayW - 1) : Int) := by
      rw [State.delay, hd]
      exact sintOfWidth_topBit (by omega)
    have hneg : s.delay < 0 := by
      rw [hmin]
      exact neg_lt_zero.mpr (by positivity)
    exact ⟨hmin, exec_encTmr hp (encodeTimerMode_of_neg hneg)⟩

/-! ### The branches of the delay encoder (R74 to R77) -/

theorem delayBytes_zero : delayBytes 0 = ⟨0x00, 0x06, 0x60⟩ := rfl

theorem delayBytes_of_pos {d : Int} (h : 0 < d) : delayBytes d = delayOn (minutes d) := by
  unfold delayBytes
  rw [if_neg h.ne', if_pos h]

theorem delayBytes_of_neg_of_large {d : Int} (h : d < 0) (hm : 255 < minutes d) :
    delayBytes d = delayOffLarge (minutes d) := by
  unfold delayBytes
  rw [if_neg h.ne, if_neg h.not_gt, if_pos hm]

theorem delayBytes_of_neg_of_small {d : Int} (h : d < 0) (hm : minutes d ≤ 255) :
    delayBytes d = delayOffSmall (minutes d) := by
  unfold delayBytes
  rw [if_neg h.ne, if_neg h.not_gt, if_neg hm.not_gt]

/-- The second byte of a minute count, which the two long forms carry (R75, R76). -/
theorem toNat_highByte (m : Nat) : (BitVec.ofNat 8 (m >>> 8)).toNat = m / 256 % 256 := by
  rw [BitVec.toNat_ofNat, Nat.shiftRight_eq_div_pow]

/-- Byte 2 of the small form: the low nibble of `m` above the nibble 6 (R77). -/
theorem delayOffSmall_byte2_toNat (m : Nat) : (delayOffSmall m).byte2.toNat = m % 16 * 16 + 6 := by
  have hnibbles : 0x06 ||| ((m &&& 0x0F) <<< 4) = m % 16 * 16 + 6 := by
    rw [Nat.and_two_pow_sub_one_eq_mod m 4, Nat.or_comm, ← Nat.shiftLeft_add_eq_or_of_lt (by decide),
      Nat.shiftLeft_eq]
  rw [delayOffSmall, hnibbles, BitVec.toNat_ofNat]
  omega

/-- Byte 3 of the small form: the high nibble of `m` (R77). -/
theorem delayOffSmall_byte3_toNat {m : Nat} (hm : m ≤ 255) : (delayOffSmall m).byte3.toNat = m / 16 := by
  rw [delayOffSmall, BitVec.toNat_ofNat, Nat.shiftRight_eq_div_pow]
  omega

/-- Settles O24: branch by branch, each with the bytes of its form. -/
theorem delayBytesByBranch : Obligations.DelayBytesByBranch := by
  unfold Obligations.DelayBytesByBranch
  refine fun d => ⟨fun h => h ▸ delayBytes_zero, fun h => ?_, fun h hm => ?_, fun h hm => ?_, rfl, rfl⟩
  · rw [delayBytes_of_pos h]
    exact ⟨BitVec.toNat_ofNat _ _, toNat_highByte _, rfl⟩
  · rw [delayBytes_of_neg_of_large h hm]
    exact ⟨rfl, BitVec.toNat_ofNat _ _, toNat_highByte _⟩
  · rw [delayBytes_of_neg_of_small h hm]
    have hbyte3 : (delayOffSmall (minutes d)).byte3.toNat = d.natAbs * 60 / 16 := delayOffSmall_byte3_toNat hm
    exact ⟨rfl, delayOffSmall_byte2_toNat _, hbyte3, by omega⟩

/-! ### Where the two off-timer forms meet (R78) -/

/-- Four hours are 240 minutes and five are 300. -/
theorem minutes_le_255_iff (d : Int) : minutes d ≤ 255 ↔ d.natAbs ≤ 4 := by
  unfold minutes
  omega

/-- Settles O25: the minute count is at most 255 for four hours and no more. -/
theorem smallOffTimerIsOneToFourHours : Obligations.SmallOffTimerIsOneToFourHours := by
  unfold Obligations.SmallOffTimerIsOneToFourHours
  refine ⟨fun d => ?_, rfl, rfl, rfl, rfl, fun d h4 h1 => ?_, fun d h5 => ?_⟩
  · rw [minutes_le_255_iff]
    omega
  · exact delayBytes_of_neg_of_small (by omega) ((minutes_le_255_iff d).mpr (by omega))
  · have hm : 300 ≤ minutes d := by
      unfold minutes
      omega
    exact ⟨hm, delayBytes_of_neg_of_large (by omega) (by omega)⟩

/-! ### The packing of the delay bytes in RES (R88) -/

theorem packed_byte1 (b : DelayBytes) : b.packed.extractLsb' 0 8 = b.byte1 :=
  BitVec.extractLsb'_append_eq_right

theorem packed_byte2 (b : DelayBytes) : b.packed.extractLsb' 8 8 = b.byte2 := by
  rw [DelayBytes.packed, BitVec.extractLsb'_append_eq_of_le (by decide)]
  exact BitVec.extractLsb'_append_eq_right

theorem packed_byte3 (b : DelayBytes) : b.packed.extractLsb' 16 8 = b.byte3 := by
  rw [DelayBytes.packed, BitVec.extractLsb'_append_eq_of_le (by decide)]
  exact BitVec.extractLsb'_append_eq_left

/-- Settles O26: RES is the packed delay bytes, whose 24 bits it holds whole. -/
theorem encDlyGivesTheDelayBytes : Obligations.EncDlyGivesTheDelayBytes := by
  unfold Obligations.EncDlyGivesTheDelayBytes
  refine ⟨rfl, fun s hp => ⟨(delayBytes s.delay).packed, packed_byte1 _, packed_byte2 _, packed_byte3 _, ?_,
    ?_, ?_, ?_, ?_, ?_⟩⟩
  · simpa only [BitVec.setWidth_eq] using exec_of_pattern (i := .encDly) hp rfl rfl
  all_goals
    intro h
    rw [h]
    rfl

end Sys2Proof.Machine

/-! # The Frame Builder (42_frame_builder.md)

Concatenation is a shift and a sum, which gives the values of the packed bytes; with the layout of R89 they give the
values of a built frame's bytes and its checksum. `build` stores that frame or raises the first field's error. -/

namespace Sys2Proof.Machine

/-! ### The additive checksum (R92) -/

theorem toNat_checksum (x : List Byte) : (checksum x).toNat = (x.map BitVec.toNat).sum % 256 :=
  BitVec.toNat_ofNat _ _

/-- An 8-bit addition discards the carry, as the sum modulo 256 does. -/
theorem checksum_cons (b : Byte) (x : List Byte) : checksum (b :: x) = b + checksum x := by
  rw [checksum, checksum, List.map_cons, List.sum_cons, BitVec.ofNat_add, BitVec.ofNat_toNat, BitVec.setWidth_eq]

/-- The 8-bit accumulation from any start adds the checksum to it. -/
theorem foldl_add_eq_add_checksum (x : List Byte) (acc : Byte) :
    x.foldl (fun acc b => acc + b) acc = acc + checksum x := by
  induction x generalizing acc with
  | nil => exact (BitVec.add_zero acc).symm
  | cons b x ih => rw [List.foldl_cons, ih, checksum_cons, BitVec.add_assoc]

/-- Settles O28: the accumulation from 0 adds the checksum to 0. -/
theorem checksumIsTheCarryDiscardingSum : Obligations.ChecksumIsTheCarryDiscardingSum := by
  unfold Obligations.ChecksumIsTheCarryDiscardingSum
  exact fun x => ⟨toNat_checksum x, (foldl_add_eq_add_checksum x 0).trans (BitVec.zero_add _)⟩

/-! ### The layout of a built frame (R89) -/

/-- Settles O29: the frame is the body of the five patterns with its checksum. -/
theorem builtFrameLayout : Obligations.BuiltFrameLayout := by
  unfold Obligations.BuiltFrameLayout
  intro S d F h
  obtain ⟨mode, pwr, temp, fan, swg, hm, hp, ht, hf, hs, rfl⟩ := buildCommand_ok_iff.mp h
  exact ⟨mode, pwr, temp, fan, swg, hm, hp, ht, hf, hs, rfl, rfl⟩

/-! ### The packed bytes 5 and 8 (R90, R91) -/

theorem byte5_eq_shifts (mode : BitVec 4) (tmr : BitVec 2) (pwr : BitVec 1) :
    byte5 mode tmr pwr =
      (mode.setWidth 8 <<< 4) ||| 0x08#8 ||| (tmr.setWidth 8 <<< 1) ||| pwr.setWidth 8 :=
  (BitVec.setWidth_eq _).symm.trans BitVec.setWidth_append_append_append_eq_shiftLeft_setWidth_or

theorem byte8_eq_shifts (fan swg : BitVec 4) :
    byte8 fan swg = (fan.setWidth 8 <<< 4) ||| swg.setWidth 8 :=
  (BitVec.setWidth_eq _).symm.trans BitVec.setWidth_append_eq_shiftLeft_setWidth_or

/-- The upper field of a concatenation stands above the bits of the lower one, so their values add up. -/
theorem toNat_append_eq_mul_add {m n : Nat} (x : BitVec m) (y : BitVec n) :
    (x ++ y).toNat = x.toNat * 2 ^ n + y.toNat := by
  rw [BitVec.toNat_append, ← Nat.shiftLeft_add_eq_or_of_lt y.isLt, Nat.shiftLeft_eq]

theorem toNat_byte5 (mode : BitVec 4) (tmr : BitVec 2) (pwr : BitVec 1) :
    (byte5 mode tmr pwr).toNat = mode.toNat * 16 + 8 + tmr.toNat * 2 + pwr.toNat := by
  simp only [byte5, toNat_append_eq_mul_add, BitVec.toNat_ofNat]
  omega

theorem toNat_byte8 (fan swg : BitVec 4) : (byte8 fan swg).toNat = fan.toNat * 16 + swg.toNat :=
  toNat_append_eq_mul_add fan swg

/-- Below the mode's nibble stand the separator 8 and, as the timer mode is not `11`, at most 5 more. -/
theorem byte5_bounds (mode : BitVec 4) {tmr : BitVec 2} (pwr : BitVec 1) (ht : tmr ≠ 0b11#2) :
    mode.toNat * 16 + 8 ≤ (byte5 mode tmr pwr).toNat ∧ (byte5 mode tmr pwr).toNat ≤ mode.toNat * 16 + 13 := by
  have htmr : tmr.toNat ≠ 3 := fun h3 => ht (BitVec.eq_of_toNat_eq h3)
  rw [toNat_byte5]
  omega

theorem byte8_nibbles {fan swg : BitVec 4} (hf : fan = 0b1011#4 ∨ (3 ≤ fan.toNat ∧ fan.toNat ≤ 7))
    (hs : swg = 0b0000#4 ∨ swg = 0b1111#4) :
    ((3 ≤ (byte8 fan swg).toNat / 16 ∧ (byte8 fan swg).toNat / 16 ≤ 7) ∨ (byte8 fan swg).toNat / 16 = 0xB) ∧
      ((byte8 fan swg).toNat % 16 = 0 ∨ (byte8 fan swg).toNat % 16 = 0xF) := by
  have hbyte := toNat_byte8 fan swg
  have hhigh : (byte8 fan swg).toNat / 16 = fan.toNat := by omega
  have hlow : (byte8 fan swg).toNat % 16 = swg.toNat := by omega
  rw [hhigh, hlow]
  exact ⟨hf.symm.imp_right (congrArg BitVec.toNat), hs.imp (congrArg BitVec.toNat) (congrArg BitVec.toNat)⟩

/-- Byte 5 of a built frame packs the mode's pattern with a timer mode (R90). -/
theorem buildCommand_byte5_bounds {S : Settings} {d : Int} {F : List Byte} (h : buildCommand S d = .ok F)
    {mode : BitVec 4} (hmode : encodeMode S.mode = .ok mode) :
    mode.toNat * 16 + 8 ≤ (F.getD 5 0).toNat ∧ (F.getD 5 0).toNat ≤ mode.toNat * 16 + 13 := by
  obtain ⟨mode', pwr, temp, fan, swg, hm, -, -, -, -, rfl⟩ := buildCommand_ok_iff.mp h
  obtain rfl : mode = mode' := Except.ok.inj (hmode.symm.trans hm)
  exact byte5_bounds mode pwr (encodeTimerMode_ne d)

/-- Settles O30: the shifts are those of a concatenation, and the values those that the field encoders give. -/
theorem packedByteValues : Obligations.PackedByteValues := by
  unfold Obligations.PackedByteValues
  refine ⟨byte5_eq_shifts, byte8_eq_shifts, fun S d F h => ⟨fun hcool => ?_, fun hheat => ?_, ?_⟩,
    rfl, by decide, rfl⟩
  · exact buildCommand_byte5_bounds h (hcool ▸ encodeMode_namedCodes.zero)
  · exact buildCommand_byte5_bounds h (hheat ▸ encodeMode_namedCodes.one)
  · obtain ⟨mode, pwr, temp, fan, swg, -, -, -, hf, hs, rfl⟩ := buildCommand_ok_iff.mp h
    exact byte8_nibbles (encodeFan_ok_cases hf) (encodeSwing_ok_cases hs)

/-! ### The checksum of a built frame (R93) -/

/-- The fixed bytes of the body add up to `0x1D3`. -/
theorem toNat_checksum_frameBody (mode : BitVec 4) (tmr : BitVec 2) (pwr : BitVec 1) (temp : Byte)
    (fan swg : BitVec 4) (b : DelayBytes) :
    (checksum (frameBody mode tmr pwr temp fan swg b)).toNat =
      (0xD3 + (byte5 mode tmr pwr).toNat + temp.toNat + (byte8 fan swg).toNat +
        b.byte1.toNat + b.byte2.toNat + b.byte3.toNat) % 256 := by
  rw [toNat_checksum]
  simp only [frameBody, frameHeader, frameTrailer, List.map_cons, List.map_append, List.map_nil, List.sum_append,
    List.sum_cons, List.sum_nil, BitVec.toNat_ofNat, BitVec.ofNat_eq_ofNat]
  omega

/-- Settles O31: the last byte is the checksum of the body. -/
theorem frameChecksumClosedForm : Obligations.FrameChecksumClosedForm := by
  unfold Obligations.FrameChecksumClosedForm
  intro S d F h
  obtain ⟨mode, pwr, temp, fan, swg, -, -, -, -, -, rfl⟩ := buildCommand_ok_iff.mp h
  exact ⟨toNat_checksum_frameBody mode _ pwr temp fan swg _, toNat_checksum _⟩

/-! ### When a frame is built (R95) -/

/-- The encoder of an enumerated setting succeeds on the two named codes alone. -/
theorem EncodesNamedCodes.exists_ok_iff {n : Nat} {enc : SettingCode → Except Err (BitVec n)} {v0 v1 : BitVec n}
    {kind : ErrKind} (henc : EncodesNamedCodes enc v0 v1 kind) (c : SettingCode) :
    (∃ v, enc c = .ok v) ↔ c = 0b00#2 ∨ c = 0b01#2 := by
  have hcodes : ∀ c : SettingCode, c = 0b00#2 ∨ c = 0b01#2 ∨ c = 0b10#2 ∨ c = 0b11#2 := by decide
  rcases hcodes c with rfl | rfl | rfl | rfl
  · simp [henc.zero]
  · simp [henc.one]
  · simp [henc.two]
  · simp [henc.three]

theorem exists_encodeTemperature_ok_iff (temp : Byte) :
    (∃ v, encodeTemperature temp = .ok v) ↔ 18 ≤ tempValue temp ∧ tempValue temp ≤ 30 := by
  by_cases h : 18 ≤ tempValue temp ∧ tempValue temp ≤ 30
  · obtain ⟨v, hv, -⟩ := encodeTemperature_valid h.1 h.2
    exact iff_of_true ⟨v, hv⟩ h
  · simp [encodeTemperature_invalid (temp := temp) (by omega), h]

theorem exists_encodeFan_ok_iff (fan : Byte) :
    (∃ v, encodeFan fan = .ok v) ↔ 0 ≤ fanValue fan ∧ fanValue fan ≤ 5 := by
  by_cases h : 0 ≤ fanValue fan ∧ fanValue fan ≤ 5
  · refine iff_of_true ?_ h
    by_cases h0 : fanValue fan = 0
    · exact ⟨_, encodeFan_auto h0⟩
    · obtain ⟨v, hv, -⟩ := encodeFan_speed (fan := fan) (by omega) h.2
      exact ⟨v, hv⟩
  · simp [encodeFan_invalid (fan := fan) (by omega), h]

/-- A frame is built when each of the five field encoders gives a pattern (R94). -/
theorem exists_buildCommand_ok_iff (S : Settings) (d : Int) :
    (∃ F, buildCommand S d = .ok F) ↔
      (∃ v, encodeMode S.mode = .ok v) ∧ (∃ v, encodePower S.power = .ok v) ∧
        (∃ v, encodeTemperature S.temp = .ok v) ∧ (∃ v, encodeFan S.fan = .ok v) ∧
        (∃ v, encodeSwing S.swing = .ok v) := by
  constructor
  · rintro ⟨F, h⟩
    obtain ⟨mode, pwr, temp, fan, swg, hm, hp, ht, hf, hs, -⟩ := buildCommand_ok_iff.mp h
    exact ⟨⟨mode, hm⟩, ⟨pwr, hp⟩, ⟨temp, ht⟩, ⟨fan, hf⟩, ⟨swg, hs⟩⟩
  · rintro ⟨⟨mode, hm⟩, ⟨pwr, hp⟩, ⟨temp, ht⟩, ⟨fan, hf⟩, ⟨swg, hs⟩⟩
    exact ⟨_, buildCommand_ok_iff.mpr ⟨mode, pwr, temp, fan, swg, hm, hp, ht, hf, hs, rfl⟩⟩

/-- Settles O32: field by field, the encoder's domain. -/
theorem buildSucceedsExactlyOnValidSettings : Obligations.BuildSucceedsExactlyOnValidSettings := by
  unfold Obligations.BuildSucceedsExactlyOnValidSettings
  intro S d
  rw [exists_buildCommand_ok_iff, encodeMode_namedCodes.exists_ok_iff, encodePower_namedCodes.exists_ok_iff,
    exists_encodeTemperature_ok_iff, exists_encodeFan_ok_iff, encodeSwing_namedCodes.exists_ok_iff]

/-! ### The `build` command (R96) -/

theorem exec_build_of_ok {s : State} {F : List Byte} (hp : s.phase = .exec)
    (hF : buildCommand s.set s.delay = .ok F) : exec .build s = .next (complete (storeFrame F s)) := by
  rw [exec_exec .build hp, execEnd, buildThen_ok complete hF]

theorem exec_build_of_error {s : State} {e : Err} (hp : s.phase = .exec)
    (he : buildCommand s.set s.delay = .error e) :
    exec .build s = .next (raiseError e { s with fvalid := false }) := by
  rw [exec_exec .build hp, execEnd, buildThen_error complete he]

/-- Bytes that are written a second time at the same place change nothing. -/
theorem read_writeBytes_twice (m : Memory) (i : Nat) (bs : List Byte) (a : Nat) :
    Memory.read (Memory.writeBytes (Memory.writeBytes m i bs) i bs) a =
      Memory.read (Memory.writeBytes m i bs) a := by
  rw [read_writeBytes]
  split
  case isTrue ha => rw [read_writeBytes, if_pos ha]
  case isFalse => rfl

/-- A frame that is stored holds its bytes at the indices 0 to 16. -/
theorem getElem?_eq_read_writeBytes (m : Memory) {F : List Byte} (hF : F.length = Config.frameN) {a : Nat}
    (ha : a ≤ 16) : F[a]? = some (Memory.read (Memory.writeBytes m 0 F) a) := by
  have hlt : a < F.length := by rw [hF]; exact Nat.lt_succ_of_le ha
  rw [read_writeBytes, if_pos (by omega), Nat.sub_zero, List.getD_eq_getElem _ _ hlt, List.getElem?_eq_getElem hlt]

theorem read_writeBytes_of_past (m : Memory) {F : List Byte} (hF : F.length = Config.frameN) {a : Nat}
    (ha : 17 ≤ a) : Memory.read (Memory.writeBytes m 0 F) a = Memory.read m a := by
  have hle : F.length ≤ a := by rw [hF]; exact ha
  rw [read_writeBytes, if_neg (by omega)]

/-- Settles O34: `build` ends its EXEC with the frame stored or with the field's error raised. -/
theorem buildStoresTheFrameOrReportsTheError : Obligations.BuildStoresTheFrameOrReportsTheError := by
  unfold Obligations.BuildStoresTheFrameOrReportsTheError
  refine ⟨rfl, fun s F hp hF => ?_, fun s e hp he => exec_build_of_error hp he, rfl⟩
  have hlen := buildCommand_length hF
  refine ⟨_, exec_build_of_ok hp hF, rfl, fun a => getElem?_eq_read_writeBytes s.frame hlen,
    fun a => read_writeBytes_of_past s.frame hlen, fun u hu a => ?_⟩
  have hagain := exec_build_of_ok (s := { complete (storeFrame F s) with phase := .exec }) rfl hF
  obtain rfl := Host.Outcome.next.inj (hagain.symm.trans hu)
  exact read_writeBytes_twice s.frame 0 F a

end Sys2Proof.Machine

/-! # The Pulse Encoder and its symbol stream (43_pulse_encoder.md)

A render is a lead-in and three frames with a leader and a stop symbol; the table of R103, the symbol counts and the
text follow from that shape. One rule for an edge of the emission loop serves every emitting command, and in EMIT the
invariant ties the offered symbol to the schedule of the command in CUR. -/

namespace Sys2Proof.Machine

/-! ### The symbol ROM (R97) -/

/-- Four concatenated bytes are the four fields of the quadruple, F0 first. -/
theorem quadFields_append (f0 f1 f2 f3 : Byte) : quadFields (f0 ++ f1 ++ f2 ++ f3) = [f0, f1, f2, f3] := by
  have h1 : (f0 ++ f1 ++ f2 ++ f3).extractLsb' 24 8 = f0 := by
    rw [BitVec.extractLsb'_append_eq_of_le (by decide), BitVec.extractLsb'_append_eq_of_le (by decide)]
    exact BitVec.extractLsb'_append_eq_left
  have h2 : (f0 ++ f1 ++ f2 ++ f3).extractLsb' 16 8 = f1 := by
    rw [BitVec.extractLsb'_append_eq_of_le (by decide), BitVec.extractLsb'_append_eq_of_le (by decide)]
    exact BitVec.extractLsb'_append_eq_right
  have h3 : (f0 ++ f1 ++ f2 ++ f3).extractLsb' 8 8 = f2 := by
    rw [BitVec.extractLsb'_append_eq_of_le (by decide)]
    exact BitVec.extractLsb'_append_eq_right
  have h4 : (f0 ++ f1 ++ f2 ++ f3).extractLsb' 0 8 = f3 := BitVec.extractLsb'_append_eq_right
  rw [quadFields, h1, h2, h3, h4]

/-- Settles O36: each quadruple of the ROM is four concatenated bytes. -/
theorem symbolRomValues : Obligations.SymbolRomValues := by
  unfold Obligations.SymbolRomValues
  exact ⟨⟨rfl, rfl, quadFields_append ..⟩, ⟨rfl, rfl, quadFields_append ..⟩, ⟨rfl, rfl, quadFields_append ..⟩,
    ⟨rfl, rfl, quadFields_append ..⟩, ⟨rfl, rfl, quadFields_append ..⟩, ⟨rfl, rfl, quadFields_append ..⟩, fun _ => rfl⟩

/-! ### The symbols of a byte string (R99, R100) -/

/-- The bits of a byte string in stream order: byte by byte, bit 0 first (R34, R35). -/
def streamBits (bs : List Byte) : List Bool := bs.flatMap fun b => (List.range 8).map fun k => b.getLsbD k

theorem encodeBytes_eq_map_bitSym (bs : List Byte) : encodeBytes bs = (streamBits bs).map bitSym := by
  simp only [encodeBytes, streamBits, List.map_flatMap, List.map_map]
  rfl

theorem bitSym_injective : Function.Injective bitSym := by decide

/-- A byte string gives a ONE for each of its set bits. -/
theorem count_one_encodeBytes (bs : List Byte) : (encodeBytes bs).count .one = (streamBits bs).count true := by
  rw [encodeBytes_eq_map_bitSym]
  exact List.count_map_of_injective _ bitSym bitSym_injective true

theorem count_zero_encodeBytes (bs : List Byte) : (encodeBytes bs).count .zero = (streamBits bs).count false := by
  rw [encodeBytes_eq_map_bitSym]
  exact List.count_map_of_injective _ bitSym bitSym_injective false

/-- A byte string gives data symbols only. -/
theorem count_zero_add_count_one_encodeBytes (bs : List Byte) :
    (encodeBytes bs).count .zero + (encodeBytes bs).count .one = 8 * bs.length := by
  rw [count_zero_encodeBytes, count_one_encodeBytes, List.count_false_add_count_true, ← encodeBytes_length,
    encodeBytes_eq_map_bitSym, List.length_map]

theorem count_encodeBytes_of_not_data {y : PulseSym} (hy : ∀ x, bitSym x ≠ y) (bs : List Byte) :
    (encodeBytes bs).count y = 0 := by
  rw [encodeBytes_eq_map_bitSym, List.count_eq_zero]
  simp [hy]

/-- The symbol at offset `j` is bit `j mod 8` of byte `j div 8` (R103). -/
theorem getElem?_encodeBytes {bs : List Byte} {j : Nat} (h : j < 8 * bs.length) :
    (encodeBytes bs)[j]? = some (frameBitSym bs j) := by
  induction bs generalizing j with
  | nil => simp at h
  | cons b bs ih =>
    rw [encodeBytes, List.flatMap_cons, ← encodeBytes, List.getElem?_append, encodeByte_length]
    split
    case isTrue hj =>
      rw [List.getElem?_eq_getElem (by simpa using hj), encodeByte_getElem]
      simp [frameBitSym, Nat.div_eq_of_lt hj, Nat.mod_eq_of_lt hj]
    case isFalse hj =>
      obtain ⟨k, rfl⟩ := Nat.exists_eq_add_of_le (Nat.not_lt.mp hj)
      rw [Nat.add_sub_cancel_left, ih (by simp at h; omega)]
      simp [frameBitSym, Nat.add_comm 8 k]

/-! ### A render is a lead-in and three framed byte strings (R101 to R103) -/

/-- The lead-in and STOP1 (R101). -/
def leadIn : List PulseSym := [.zero, .zero, .zero, .zero, .zero, .stop1]

/-- A byte string between a leader and a stop symbol (R101). -/
def framed (bs : List Byte) (stop : PulseSym) : List PulseSym :=
  [PulseSym.leader] ++ encodeBytes bs ++ [stop]

theorem renderSeq_eq_framed (F : List Byte) :
    renderSeq F = leadIn ++ framed ff1 .stop2 ++ framed ff2 .stop2 ++ framed F .stop3 := rfl

theorem length_framed (bs : List Byte) (stop : PulseSym) : (framed bs stop).length = 8 * bs.length + 2 := by
  simp [framed]

theorem getElem?_framed_data {bs : List Byte} {stop : PulseSym} {j : Nat} (h : j < 8 * bs.length) :
    (framed bs stop)[j + 1]? = some (frameBitSym bs j) := by
  rw [framed, List.append_assoc, List.singleton_append, List.getElem?_cons_succ,
    List.getElem?_append_left (by simpa using h), getElem?_encodeBytes h]

theorem getElem?_framed_last (bs : List Byte) (stop : PulseSym) :
    (framed bs stop)[8 * bs.length + 1]? = some stop := by
  simp [framed]

/-- The symbol at an index of a framed byte string, computed from the index alone. -/
def framedSymAt (bs : List Byte) (stop : PulseSym) (i : Nat) : PulseSym :=
  if i = 0 then .leader else if i ≤ 8 * bs.length then frameBitSym bs (i - 1) else stop

theorem getElem?_framed (bs : List Byte) (stop : PulseSym) {i : Nat} (h : i < 8 * bs.length + 2) :
    (framed bs stop)[i]? = some (framedSymAt bs stop i) := by
  unfold framedSymAt
  split_ifs with h0 hi
  · rw [h0]; rfl
  · obtain ⟨j, rfl⟩ := Nat.exists_eq_succ_of_ne_zero h0
    exact getElem?_framed_data hi
  · obtain rfl : i = 8 * bs.length + 1 := by omega
    exact getElem?_framed_last bs stop

/-- The first six entries of the table are the lead-in. -/
theorem getElem?_leadIn (F : List Byte) {i : Nat} (h : i < 6) : leadIn[i]? = some (renderSymAt F i) := by
  interval_cases i <;> rfl

/-- The entries of the table for a fixed frame, and for the command frame, are those of the framed byte string. -/
theorem renderSymAt_ff1 (F : List Byte) {i : Nat} (h : i < 66) :
    renderSymAt F (6 + i) = framedSymAt ff1 .stop2 i := by
  have : ff1.length = 8 := rfl
  grind [renderSymAt, framedSymAt]

theorem renderSymAt_ff2 (F : List Byte) {i : Nat} (h : i < 66) :
    renderSymAt F (72 + i) = framedSymAt ff2 .stop2 i := by
  have : ff2.length = 8 := rfl
  grind [renderSymAt, framedSymAt]

theorem renderSymAt_frame {F : List Byte} (hF : F.length = 17) (i : Nat) :
    renderSymAt F (138 + i) = framedSymAt F .stop3 i := by
  grind [renderSymAt, framedSymAt]

/-- The table of R103 holds at every index of a render. -/
theorem getElem?_renderSeq {F : List Byte} (hF : F.length = 17) {i : Nat} (hi : i < 276) :
    (renderSeq F)[i]? = some (renderSymAt F i) := by
  have h1 : (framed ff1 .stop2).length = 66 := length_framed ff1 .stop2
  have h2 : (framed ff2 .stop2).length = 66 := length_framed ff2 .stop2
  rw [renderSeq_eq_framed, List.append_assoc, List.append_assoc]
  rcases Nat.lt_or_ge i 6 with hlead | hlead
  · rw [List.getElem?_append_left hlead, getElem?_leadIn F hlead]
  obtain ⟨i, rfl⟩ := Nat.exists_eq_add_of_le hlead
  rw [List.getElem?_append_right hlead, show 6 + i - leadIn.length = i from Nat.add_sub_cancel_left 6 i]
  rcases Nat.lt_or_ge i 66 with hff1 | hff1
  · rw [List.getElem?_append_left (h1 ▸ hff1), renderSymAt_ff1 F hff1, getElem?_framed _ _ hff1]
  obtain ⟨i, rfl⟩ := Nat.exists_eq_add_of_le hff1
  rw [List.getElem?_append_right (h1 ▸ hff1), h1, Nat.add_sub_cancel_left, ← Nat.add_assoc]
  rcases Nat.lt_or_ge i 66 with hff2 | hff2
  · rw [List.getElem?_append_left (h2 ▸ hff2), renderSymAt_ff2 F hff2, getElem?_framed _ _ hff2]
  obtain ⟨i, rfl⟩ := Nat.exists_eq_add_of_le hff2
  rw [List.getElem?_append_right (h2 ▸ hff2), h2, Nat.add_sub_cancel_left, ← Nat.add_assoc,
    renderSymAt_frame hF, getElem?_framed _ _ (by omega)]

/-- Settles O38: the table at every index, and its entries for the command frame. -/
theorem renderSymbolFromItsIndex : Obligations.RenderSymbolFromItsIndex := by
  unfold Obligations.RenderSymbolFromItsIndex
  refine ⟨rfl, rfl, ⟨rfl, rfl⟩, fun F hF => ⟨fun i hi => getElem?_renderSeq hF hi, fun j k hj hk => ?_⟩⟩
  have hdiv : (8 * j + k) / 8 = j := by omega
  have hmod : (8 * j + k) % 8 = k := by omega
  rw [getElem?_renderSeq hF (by omega), show 139 + 8 * j + k = 138 + (8 * j + k + 1) by omega, renderSymAt_frame hF,
    framedSymAt, if_neg (by omega), if_pos (by omega), Nat.add_sub_cancel, frameBitSym, hdiv, hmod]

/-! ### How often each symbol occurs in a render (R102) -/

theorem count_framed (y : PulseSym) (bs : List Byte) (stop : PulseSym) :
    (framed bs stop).count y = [PulseSym.leader, stop].count y + (encodeBytes bs).count y := by
  rw [framed, List.count_append, List.count_append, Nat.add_right_comm, ← List.count_append, List.singleton_append]

theorem streamBits_append (as bs : List Byte) : streamBits (as ++ bs) = streamBits as ++ streamBits bs :=
  List.flatMap_append

theorem encodeBytes_append (as bs : List Byte) : encodeBytes (as ++ bs) = encodeBytes as ++ encodeBytes bs :=
  List.flatMap_append

/-- The symbols around the data symbols of a render: the lead-in, the leaders and the stop symbols. -/
def renderMarks : List PulseSym :=
  leadIn ++ [PulseSym.leader, .stop2] ++ [PulseSym.leader, .stop2] ++ [PulseSym.leader, .stop3]

/-- A symbol occurs in a render as often as around the data symbols and among those of the three frames. -/
theorem count_renderSeq (y : PulseSym) (F : List Byte) :
    (renderSeq F).count y = renderMarks.count y + (encodeBytes (ff1 ++ ff2 ++ F)).count y := by
  simp only [renderSeq_eq_framed, renderMarks, encodeBytes_append, count_framed, List.count_append]
  omega

theorem count_renderSeq_of_not_data {y : PulseSym} (hy : ∀ x, bitSym x ≠ y) (F : List Byte) :
    (renderSeq F).count y = renderMarks.count y := by
  rw [count_renderSeq, count_encodeBytes_of_not_data hy, Nat.add_zero]

theorem count_one_renderSeq (F : List Byte) : (renderSeq F).count .one = (streamBits (ff1 ++ ff2 ++ F)).count true := by
  rw [count_renderSeq, count_one_encodeBytes]
  exact Nat.zero_add _

/-- Settles O37: the symbols that are no data symbols are counted on the fixed part of a render, the others by bits. -/
theorem renderHas276Symbols : Obligations.RenderHas276Symbols := by
  unfold Obligations.RenderHas276Symbols
  intro F hF
  have hzero : (renderSeq F).count .zero = 5 + (encodeBytes (ff1 ++ ff2 ++ F)).count .zero := count_renderSeq .zero F
  have hone : (renderSeq F).count .one = 0 + (encodeBytes (ff1 ++ ff2 ++ F)).count .one := count_renderSeq .one F
  have hdata := count_zero_add_count_one_encodeBytes (ff1 ++ ff2 ++ F)
  have hlen : (ff1 ++ ff2 ++ F).length = 33 := by simp [ff1, ff2, hF]
  exact ⟨by rw [renderSeq_length, hF], count_renderSeq_of_not_data (by decide) F,
    count_renderSeq_of_not_data (by decide) F, count_renderSeq_of_not_data (by decide) F,
    count_renderSeq_of_not_data (by decide) F, by omega, count_one_renderSeq F⟩

/-! ### One edge of an emitting command (R105, R106) -/

/-- An emitting command whose schedule has `y` at SEQ_IDX does what R106 says for that symbol. -/
theorem emitsAtThisEdge_of_emit {i : Instr} {s : State} {y : PulseSym} {N : Nat} (hp : s.phase = .emit)
    (hy : (schedOf i s)[s.seqIdx.toNat]? = some y) (hN : (schedOf i s).length = N) : EmitsAtThisEdge i s y N := by
  subst hN
  have hsym : symAt (schedOf i s) s.seqIdx.toNat = some (streamed y s.seqIdx.toNat (schedOf i s).length) :=
    symAt_eq_some_iff.mpr ⟨y, hy, rfl⟩
  have hexec : exec i s = emitEdge (schedOf i s) s := exec_emit hp (lt_of_symAt hsym)
  simp only [EmitsAtThisEdge, hexec, emitEdge, hsym]
  refine ⟨fun ho => ?_, fun ho hr => ?_, fun ho hr hlt => ?_, fun ho hr hlast => ?_⟩
  · simp [ho]
  · simp [ho, hr]
  · simp [ho, hr, streamed, Nat.ne_of_lt hlt]
  · simp [ho, hr, streamed, hlast, complete]

theorem startEmits_code (y : PulseSym) (s : State) : startEmits y.code s = startEmit s := by
  simp [startEmits]

theorem schedOf_emits_code (y : PulseSym) (s : State) : schedOf (.emits y.code) s = [y] := by
  simp [schedOf]

/-! ### `emitb` (R108) -/

/-- Settles O39: the schedule of `emitb` is the bits of its byte. -/
theorem emitbEmitsTheBitsOfItsByte : Obligations.EmitbEmitsTheBitsOfItsByte := by
  unfold Obligations.EmitbEmitsTheBitsOfItsByte
  refine fun b => ⟨?_, fun s => ⟨fun hp => exec_exec (.emitb b) hp, fun hp hlt => ?_⟩⟩
  · rw [encode_emitb, ← BitVec.toNat_inj, toNat_append_eq_mul_add, BitVec.toNat_ofNat]
    exact (Nat.mod_eq_of_lt (by omega)).symm
  · refine emitsAtThisEdge_of_emit hp ?_ (encodeByte_length b)
    have hlt : s.seqIdx.toNat < (encodeByte b).length := by simpa using hlt
    rw [schedOf, List.getElem?_eq_getElem hlt, encodeByte_getElem, bitSym]

/-! ### `emits` (R109) -/

/-- The words of `emits` with an operand from 6 on have a bad operand (R48). -/
theorem decode_emits_of_six_le {n : Nat} (h6 : 6 ≤ n) (h255 : n ≤ 255) :
    decode (BitVec.ofNat 16 (0xA000 + n)) = .illegal .badOperand ∧
      opndField (BitVec.ofNat 16 (0xA000 + n)) = BitVec.ofNat 8 n := by
  obtain ⟨hop, hrsv, hopnd⟩ := fields_ofNat 10 (rsv := 0) (opnd := n) (by decide) (by omega)
  rw [show 0xA000 + n = 10 * 4096 + 0 * 256 + n by omega]
  refine ⟨decode_emits_badOperand hop hrsv ?_, hopnd⟩
  rw [hopnd, BitVec.toNat_ofNat]
  omega

/-- Settles O40: the schedule of `emits` is its one symbol, and from 6 on the word has a bad operand. -/
theorem emitsEmitsItsSymbol : Obligations.EmitsEmitsItsSymbol := by
  unfold Obligations.EmitsEmitsItsSymbol
  refine ⟨fun y => ⟨?_, fun s => ?_⟩, fun n s h6 h255 hp hr hw hcur => ?_⟩
  · cases y <;> rfl
  · have hedge (hp : s.phase = .emit) (hq : s.seqIdx = 0#9) : EmitsAtThisEdge (.emits y.code) s y 1 :=
      emitsAtThisEdge_of_emit hp (by rw [schedOf_emits_code, hq]; rfl) (by rw [schedOf_emits_code]; rfl)
    refine ⟨fun hp => ?_, fun hp hq ho => ?_, fun hp hq ho hs => ?_, fun hp hq ho hs => ?_⟩
    · rw [exec_exec _ hp, execEnd, startEmits_code]
      rfl
    · obtain ⟨hraise, -⟩ := hedge hp hq
      exact hraise ho
    · obtain ⟨-, hhold, -⟩ := hedge hp hq
      exact hhold ho hs
    · obtain ⟨-, -, -, hlast⟩ := hedge hp hq
      have := hlast ho hs (by simp [hq])
      simpa [streamed, hq] using this
  · obtain ⟨hd, hopnd⟩ := decode_emits_of_six_le h6 h255
    rw [← hcur] at hd hopnd
    refine ⟨_, step_of_execEnd hr hp hw, ?_⟩
    rw [execOutcome_of_illegal hp hd]
    exact ⟨rfl, rfl, hopnd, rfl, rfl⟩

/-! ### `render` (R110, R111) -/

theorem exec_render_of_ok {s : State} {F : List Byte} (hp : s.phase = .exec)
    (hF : buildCommand s.set s.delay = .ok F) : exec .render s = .next (startEmit (storeFrame F s)) := by
  rw [exec_exec .render hp, execEnd, buildThen_ok startEmit hF]

theorem exec_render_of_error {s : State} {e : Err} (hp : s.phase = .exec)
    (he : buildCommand s.set s.delay = .error e) :
    exec .render s = .next (raiseError e { s with fvalid := false }) := by
  rw [exec_exec .render hp, execEnd, buildThen_error startEmit he]

/-- Up to the last leader the symbol of a render does not depend on the frame (R103). -/
theorem renderSymAt_eq_of_le (F G : List Byte) {k : Nat} (h : k ≤ 138) : renderSymAt F k = renderSymAt G k := by
  grind [renderSymAt]

/-- Settles O42: `render` ends its EXEC as `build` does but for the start of its emission, and then every edge of the
loop takes its symbol from the table of R103. -/
theorem renderBuildsThenEmitsItsSequence : Obligations.RenderBuildsThenEmitsItsSequence := by
  unfold Obligations.RenderBuildsThenEmitsItsSequence
  refine ⟨rfl, fun s F hp hF => ?_, fun s hp hlt => ?_, fun s e hp he => exec_render_of_error hp he,
    fun F G k hk => renderSymAt_eq_of_le F G hk, ?_⟩
  · have hlen := buildCommand_length hF
    refine ⟨_, exec_render_of_ok hp hF, rfl, fun a => getElem?_eq_read_writeBytes s.frame hlen,
      fun a => read_writeBytes_of_past s.frame hlen, fun u hu => ?_⟩
    obtain rfl := Host.Outcome.next.inj ((exec_build_of_ok hp hF).symm.trans hu)
    rfl
  · have hlen : (frameBytes s.frame).length = 17 := frameBytes_length s.frame
    refine emitsAtThisEdge_of_emit hp (getElem?_renderSeq hlen hlt) ?_
    rw [schedOf, renderSeq_length, hlen]
  · refine ⟨_, rfl, ?_, rfl, rfl⟩
    rw [count_one_renderSeq, streamBits_append, List.count_append]
    rfl

/-! ### The text of a stream (R112, R113) -/

/-- The text of a symbol, which is the same with `sym_last` and without (R112). -/
def symbolText (y : PulseSym) : List Char := symText ⟨y.code, symRom y, false⟩

/-- A schedule's text does not depend on where its last symbol stands (R107, R112). -/
theorem streamText_stamp (ys : List PulseSym) : streamText (stamp ys) = ys.flatMap symbolText := by
  calc (stamp ys).flatMap symText
      = ((stamp ys).map SymOut.symbolValue).flatMap fun v => symText ⟨v.1, v.2, false⟩ := by
        rw [List.flatMap_map]; rfl
    _ = ys.flatMap symbolText := by rw [map_symbolValue_stamp, List.flatMap_map]; rfl

/-- The text of each symbol has 20 characters, but that of STOP3 has no comma at its end. -/
theorem length_flatMap_symbolText (ys : List PulseSym) :
    (ys.flatMap symbolText).length + ys.count .stop3 = 20 * ys.length := by
  induction ys with
  | nil => rfl
  | cons y ys ih =>
    have hy : (symbolText y).length + [y].count .stop3 = 20 := by cases y <;> rfl
    rw [List.flatMap_cons, List.length_append, ← List.singleton_append, List.count_append, List.length_append,
      List.length_singleton]
    omega

/-- Settles O47: the text of a render is that of its symbols, one after the other, of which one is STOP3. -/
theorem textOfSymbolsAndOfARender : Obligations.TextOfSymbolsAndOfARender := by
  unfold Obligations.TextOfSymbolsAndOfARender
  refine ⟨fun last => ?_, rfl, fun y ys => List.flatMap_cons, fun F hF => ?_⟩
  · simp only [symText]
    exact ⟨rfl, rfl, rfl, rfl, rfl, rfl⟩
  rw [streamText_stamp]
  refine ⟨?_, ?_, ?_⟩
  · have := length_flatMap_symbolText (renderSeq F)
    have hs : (renderSeq F).count .stop3 = 1 := count_renderSeq_of_not_data (by decide) F
    rw [renderSeq_length, hF] at this
    omega
  · exact List.prefix_append (symbolText .zero) _
  · have hstop3 : "0x1e,0x0d".toList <:+ [PulseSym.stop3].flatMap symbolText := ⟨"0x00,0x12,".toList, rfl⟩
    obtain ⟨init, hinit⟩ : [PulseSym.stop3] <:+ renderSeq F :=
      (List.suffix_append ([PulseSym.leader] ++ encodeBytes F) _).trans (List.suffix_append _ _)
    rw [← hinit, List.flatMap_append]
    exact hstop3.trans (List.suffix_append _ _)

/-! ### The offered symbol (R26, R106) -/

/-- Only in EMIT is a symbol offered: that of the command in CUR at SEQ_IDX (R26, R106). -/
theorem State.Inv.offered {s : State} (h : s.Inv) (ho : s.offer = true) :
    s.phase = .emit ∧ ∃ y, s.sched[s.seqIdx.toNat]? = some y ∧
      s.offered = some (streamed y s.seqIdx.toNat s.sched.length) := by
  have hp : s.phase = .emit := by
    have hseq := h.seq
    cases hp : s.phase <;> simp [seqFits, hp, ho] at hseq
    rfl
  refine ⟨hp, _, List.getElem?_eq_getElem (h.seqIdx_lt hp), ?_⟩
  rw [State.offered, if_pos ho, symAt_of_lt (h.seqIdx_lt hp)]
  rfl

/-- While a symbol is offered, the three symbol outputs show it (R13, R106). -/
theorem outputs_of_offered {s : State} {y : SymOut} (h : s.offered = some y) :
    s.outputs.symCode = y.code ∧ s.outputs.symQuad = y.quad ∧ s.outputs.symLast = y.last := by
  simp [State.outputs, h]

theorem symValid_eq_true_iff (s : State) : s.outputs.symValid = true ↔ s.offer = true ∧ s.now.rst = false := by
  simp [State.outputs]

/-- Settles O43: without `sym_ready` an edge of the loop holds, so the step only lets the next cycle in. -/
theorem offeredSymbolIsStableUntilItsHandshake : Obligations.OfferedSymbolIsStableUntilItsHandshake := by
  unfold Obligations.OfferedSymbolIsStableUntilItsHandshake
  intro s h ho hr hs
  obtain ⟨hp, y, hy, -⟩ := h.offered ho
  obtain ⟨i, hd, -⟩ := h.legal_of_emit hp
  have hstep : step s = .next (advance s) := by
    obtain ⟨-, hhold, -⟩ := emitsAtThisEdge_of_emit hp (sched_of_legal hd ▸ hy) rfl
    rw [step_of_legal (commandFreeEdge_none_iff.mpr ⟨hr, .inr hp⟩) hd, hhold ho hs]
    rfl
  exact ⟨_, hstep, ho, rfl, rfl, rfl, rfl, fun hr' => (symValid_eq_true_iff _).mpr ⟨ho, hr'⟩⟩

/-- In EMIT a step does an edge of the loop on the schedule of the command in CUR (R106). -/
theorem step_emit_next {s t : State} (h : step s = .next t) (hr : s.now.rst = false) (hp : s.phase = .emit) :
    ∃ u, t = advance u ∧ emitEdge s.sched s = .next u := by
  obtain ⟨u, rfl, hu⟩ := step_cases h
  simp only [hr, hp, Bool.false_eq_true, reduceCtorEq, false_and, and_false, false_or, true_and] at hu
  obtain ⟨i, hd, hu⟩ := hu
  exact ⟨u, rfl, sched_of_legal hd ▸ hu⟩

/-- A handshake passes the symbol on the outputs, and completes the command with the last one (R106). -/
theorem step_handshake {s t : State} (h : step s = .next t) (hr : s.now.rst = false) (hp : s.phase = .emit)
    (ho : s.offer = true) (hs : s.now.symReady = true) :
    t.sink = s.sink ++ [⟨s.outputs.symCode, s.outputs.symQuad, s.outputs.symLast⟩] ∧
      ((s.outputs.symLast = true ∧ t.phase = .idle) ∨
        (s.outputs.symLast = false ∧ t.phase = .emit ∧ t.seqIdx.toNat = s.seqIdx.toNat + 1)) := by
  obtain ⟨u, rfl, hu⟩ := step_emit_next h hr hp
  obtain ⟨y, hy, hcases⟩ := emitEdge_cases hu
  obtain ⟨hcode, hquad, hlast⟩ := outputs_of_offered ((if_pos ho).trans hy)
  rw [hcode, hquad, hlast]
  rcases hcases with ⟨ho', -⟩ | ⟨-, hs', -⟩ | ⟨-, -, hl, rfl⟩ | ⟨-, -, hl, rfl⟩
  · simp [ho] at ho'
  · simp [hs] at hs'
  · exact ⟨rfl, .inl ⟨hl, rfl⟩⟩
  · exact ⟨rfl, .inr ⟨hl, hp, seqIdx_succ_toNat (lt_of_symAt hy)⟩⟩

/-- The end of EXEC leaves SEQ_IDX or begins a schedule (R105; log 12). -/
theorem ExecEnds.seqIdx_cases {s u : State} {i : Instr} (h : ExecEnds s i u) :
    u.seqIdx = s.seqIdx ∨ u.seqIdx = 0#9 := by
  cases h with
  | render | emitb | emits => exact .inr rfl
  | nop | pattern | fieldError | build | buildError | noSymbol => exact .inl rfl

/-- Without a handshake nothing passes, and SEQ_IDX stays or begins anew (R27, R106). -/
theorem step_no_handshake {s t : State} (h : step s = .next t)
    (hno : ¬(s.outputs.symValid = true ∧ s.now.symReady = true)) :
    t.sink = s.sink ∧ (t.seqIdx = s.seqIdx ∨ t.seqIdx = 0#9) := by
  obtain ⟨u, rfl, hu⟩ := step_cases h
  rcases hu with ⟨-, rfl⟩ | ⟨-, -, -, rfl⟩ | ⟨-, -, -, rfl⟩ | ⟨-, -, -, rfl⟩ |
    ⟨-, -, -, ⟨i, -, rfl⟩ | ⟨why, -, rfl⟩⟩ | ⟨hr, -, i, -, hu⟩
  · exact ⟨rfl, .inr rfl⟩
  · exact ⟨rfl, .inr rfl⟩
  · exact ⟨rfl, .inl rfl⟩
  · exact ⟨rfl, .inl rfl⟩
  · exact ⟨(execEnd_ends i s).surroundings.1, (execEnd_ends i s).seqIdx_cases⟩
  · exact ⟨rfl, .inl rfl⟩
  · rw [symValid_eq_true_iff] at hno
    obtain ⟨y, -, ⟨-, rfl⟩ | ⟨-, -, rfl⟩ | ⟨ho, hs, -⟩ | ⟨ho, hs, -⟩⟩ := emitEdge_cases hu
    · exact ⟨rfl, .inl rfl⟩
    · exact ⟨rfl, .inl rfl⟩
    · exact absurd ⟨⟨ho, hr⟩, hs⟩ hno
    · exact absurd ⟨⟨ho, hr⟩, hs⟩ hno

/-- Settles O44: a handshake needs an offer, which the invariant has only in EMIT. -/
theorem symbolsPassOnlyAtHandshakes : Obligations.SymbolsPassOnlyAtHandshakes := by
  unfold Obligations.SymbolsPassOnlyAtHandshakes
  refine fun s t h hst => ⟨fun hv hs => ?_, step_no_handshake hst⟩
  obtain ⟨ho, hr⟩ := (symValid_eq_true_iff s).mp hv
  obtain ⟨hp, -⟩ := h.offered ho
  exact step_handshake hst hr hp ho hs

/-- The outputs read 0 while nothing is offered (R26). -/
theorem outputs_of_no_offer {s : State} (ho : s.offer = false) :
    s.outputs.symValid = false ∧ s.outputs.symCode = 0 ∧ s.outputs.symQuad = 0 ∧ s.outputs.symLast = false := by
  simp [State.outputs, State.offered, ho]

/-- Settles O45: `sym_last` is 1 at the last index of the schedule, whose length depends on the command only. -/
theorem symLastMarksTheLastSymbolOnly : Obligations.SymLastMarksTheLastSymbolOnly := by
  unfold Obligations.SymLastMarksTheLastSymbolOnly
  refine ⟨fun s => outputs_of_no_offer, fun s h ho => ?_⟩
  obtain ⟨-, y, hy, hoff⟩ := h.offered ho
  obtain ⟨hcode, -, hlast⟩ := outputs_of_offered hoff
  have hiff : s.outputs.symLast = true ↔ s.seqIdx.toNat + 1 = s.sched.length := by
    rw [hlast]
    exact decide_eq_true_iff
  rw [hiff]
  refine ⟨fun b hd => ?_, fun c hd => ?_, fun hd => ?_⟩
  · rw [sched_of_legal hd, schedOf, encodeByte_length]
    omega
  · obtain ⟨x, hx⟩ := symOfCode_of_wf (wf_of_decode hd)
    rw [sched_of_legal hd, schedOf, hx]
    exact Nat.add_eq_right
  · have hlen : (frameBytes s.frame).length = 17 := frameBytes_length s.frame
    rw [sched_of_legal hd, schedOf] at hy ⊢
    refine ⟨by rw [renderSeq_length, hlen]; omega, fun hq => ?_⟩
    rw [hq, getElem?_renderSeq hlen (by decide)] at hy
    rw [hcode, ← Option.some.inj hy]
    rfl

end Sys2Proof.Machine

/-! # The errors of the block (60_exceptions.md)

An illegal word ends its EXEC with the raised error; `build` and `render` report the first failure of
`build_command`, whose order is that of its binds; an `enc.*` command reports its own encoder's. -/

namespace Sys2Proof.Machine

/-! ### An illegal word (R116) -/

/-- At an edge that runs an illegal word, `IllegalCommand` is raised and the next cycle comes in. -/
theorem step_of_illegalWord {s : State} {why : Illegal} (hp : s.phase = .exec) (hr : s.now.rst = false)
    (hw : s.now.execWait = false) (hd : decode s.cur = .illegal why) :
    step s = .next (advance (raiseError (illegalCommandErr why s.cur) s)) := by
  rw [step_of_execEnd hr hp hw, execOutcome_of_illegal hp hd]

/-- Settles O50: the registers are those of the raised error, whose value is the part of the word at fault. -/
theorem illegalWordRaisesIllegalCommand : Obligations.IllegalWordRaisesIllegalCommand := by
  unfold Obligations.IllegalWordRaisesIllegalCommand
  intro s why hp hr hw hd
  refine ⟨_, step_of_illegalWord hp hr hw hd, rfl, ?_, ?_, rfl, rfl, rfl, rfl, rfl, rfl, fun _ => rfl,
    rfl, rfl, rfl⟩
  · rintro (rfl | rfl) <;> rfl
  · rintro rfl
    rfl

/-! ### The order of the checks (R122) -/

/-- `build_command` fails with the error of the first field encoder that fails: mode, power, temperature, fan,
swing. The error is the encoder's, unmodified (R119). -/
theorem buildCommand_eq_error_iff {S : Settings} {d : Int} {e : Err} :
    buildCommand S d = .error e ↔
      encodeMode S.mode = .error e ∨
      ((∃ m, encodeMode S.mode = .ok m) ∧
        (encodePower S.power = .error e ∨
          ((∃ p, encodePower S.power = .ok p) ∧
            (encodeTemperature S.temp = .error e ∨
              ((∃ c, encodeTemperature S.temp = .ok c) ∧
                (encodeFan S.fan = .error e ∨
                  ((∃ f, encodeFan S.fan = .ok f) ∧ encodeSwing S.swing = .error e))))))) := by
  have hreturn (F : List Byte) : ¬(pure F : Except Err (List Byte)) = .error e := nofun
  simp only [buildCommand, except_bind_eq_error_iff, hreturn, and_false, exists_false, or_false, exists_and_right]

/-- On such an error `build` and `render` do the same: FVALID is cleared and the error is raised (R96, R110). -/
theorem exec_of_buildError {i : Instr} (hi : i = .build ∨ i = .render) {s : State} {e : Err}
    (hp : s.phase = .exec) (he : buildCommand s.set s.delay = .error e) :
    exec i s = .next (raiseError e { s with fvalid := false }) := by
  rcases hi with rfl | rfl
  · exact exec_build_of_error hp he
  · exact exec_render_of_error hp he

/-! ### The error of an `enc.*` command is its own field's (R119) -/

theorem EncodesNamedCodes.kind_of_error {n : Nat} {enc : SettingCode → Except Err (BitVec n)} {v0 v1 : BitVec n}
    {kind : ErrKind} (henc : EncodesNamedCodes enc v0 v1 kind) (c : SettingCode) (e : Err)
    (h : enc c = .error e) : e.kind = kind := by
  obtain ⟨zero, one, two, three⟩ := henc
  have hcode : ∀ c : SettingCode, c = 0b00#2 ∨ c = 0b01#2 ∨ c = 0b10#2 ∨ c = 0b11#2 := by decide
  rcases hcode c with rfl | rfl | rfl | rfl
  · cases zero.symm.trans h
  · cases one.symm.trans h
  · cases two.symm.trans h
    rfl
  · cases three.symm.trans h
    rfl

theorem encodeTemperature_error_kind (temp : Byte) (e : Err) (h : encodeTemperature temp = .error e) :
    e.kind = .invalidTemperature := by
  unfold encodeTemperature at h
  split_ifs at h
  cases h
  rfl

theorem encodeFan_error_kind (fan : Byte) (e : Err) (h : encodeFan fan = .error e) : e.kind = .invalidFan := by
  unfold encodeFan at h
  split_ifs at h
  cases h
  rfl

/-- A command that ends EXEC with an encoder's result leaves ERR_KIND as it was, or reports the kind of the errors
that this encoder raises (R118, R119). -/
theorem errKind_of_encEffect {i : Instr} {s t : State} {n : Nat} {r : Except Err (BitVec n)} {kind : ErrKind}
    (hp : s.phase = .exec) (hi : execEnd i s = encEffect r s) (hkind : ∀ e, r = .error e → e.kind = kind)
    (h : exec i s = .next t) : t.errKind = s.errKind ∨ t.errKind = kind := by
  obtain rfl := Host.Outcome.next.inj ((exec_exec i hp).symm.trans h)
  rw [hi]
  cases r with
  | ok v => exact .inl rfl
  | error e => exact .inr (hkind e rfl)

/-- Settles O33: `build_command` fails as its first failing check says, an `enc.*` command as its one encoder, and an
illegal word without a look at SET. -/
theorem firstErrorInTheFixedOrder : Obligations.FirstErrorInTheFixedOrder := by
  unfold Obligations.FirstErrorInTheFixedOrder
  refine ⟨fun i hi s e hp he => exec_of_buildError hi hp (buildCommand_eq_error_iff.mpr he), fun s t hp hk => ?_,
    fun s why hp hr hw hd => ⟨_, step_of_illegalWord hp hr hw hd, rfl⟩⟩
  rw [← hk]
  exact ⟨errKind_of_encEffect hp rfl (encodeMode_namedCodes.kind_of_error _),
    errKind_of_encEffect hp rfl (encodePower_namedCodes.kind_of_error _),
    errKind_of_encEffect hp rfl (encodeTemperature_error_kind _),
    errKind_of_encEffect hp rfl (encodeFan_error_kind _),
    errKind_of_encEffect hp rfl (encodeSwing_namedCodes.kind_of_error _)⟩

end Sys2Proof.Machine

/-! # Reset, the ports that are not sampled, a sink that never accepts, and the race of reads (70_reset_and_hazards.md)

A port that an edge does not sample changes nothing in the step (`step_mapNow`); the read bit, which only the reads
look at, passes through it (`step_withSeesNew`). While the sink does not accept, an edge of EMIT can at most raise
the offer (`step_of_deafSink`). -/

namespace Sys2Proof.Machine

/-! ### The reset edge (O12) -/

/-- A cycle with `rst` = 1 ends in the reset registers, whatever was in progress (R128, R131). -/
theorem step_of_reset {s : State} (hr : s.now.rst = true) : step s = .next (advance (resetEdge s)) :=
  step_of_commandFree (by simp [commandFreeEdge, hr])

/-- The STATUS word of the reset registers (R20, R29). -/
theorem status_resetEdge (s : State) : (resetEdge s).status = 0x0000#16 := by
  simp [State.status, State.busy, ErrKind.code]

/-- What the three ports show in a cycle is a read of `shown`. -/
theorem readOf_shown (s : State) :
    readOf s.shown s.now.frameAddr = ⟨s.outputs.status, s.outputs.res, s.outputs.frameData⟩ := rfl

/-- A read of the reset registers gives 0 on each port, at every index (R29, R33). -/
theorem readOf_resetEdge (s : State) (a : BitVec 5) :
    readOf (resetEdge s) a = ⟨0x0000#16, 0x000000#24, 0x00#8⟩ := by
  have hframe : frameData [] a = 0x00#8 := ite_self _
  rw [readOf, status_resetEdge, resetEdge_frame, hframe, resetEdge_res]

/-- In the cycle after a reset edge the ports show the reset values, whether or not `rst` is still 1. -/
theorem readOf_shown_advance_resetEdge (s : State) (a : BitVec 5) :
    readOf (advance (resetEdge s)).shown a = ⟨0x0000#16, 0x000000#24, 0x00#8⟩ := by
  cases hr : (advance (resetEdge s)).now.rst with
  | true => rw [shown_of_reset hr, readOf_resetEdge]
  | false => rw [shown_of_no_reset hr, readOf_advance, readOf_resetEdge]

/-- Settles O12: the next state is the reset registers with the next cycle let in, an idle block. -/
theorem resetEdgeWinsFromEveryState : Obligations.ResetEdgeWinsFromEveryState := by
  unfold Obligations.ResetEdgeWinsFromEveryState
  intro s hr
  have hshown := readOf_shown_advance_resetEdge s (advance (resetEdge s)).now.frameAddr
  obtain ⟨hstatus, hres, hframe⟩ := HostRead.mk.inj ((readOf_shown _).symm.trans hshown)
  refine ⟨by simp [State.outputs, State.cmdReady, hr], by simp [State.outputs, hr], _, step_of_reset hr,
    rfl, rfl, rfl, fun _ => rfl, status_resetEdge s, rfl, rfl, rfl, rfl, rfl, rfl, rfl, rfl, rfl, hstatus, hres, hframe,
    fun hr' => ⟨(cmdReady_eq_true_iff _).mpr ⟨hr', rfl⟩, fun hv => ?_⟩⟩
  exact ⟨_, step_of_acceptance rfl hr' hv, rfl, rfl⟩

/-! ### What is sampled at an acceptance edge only (O9) -/

/-- The command port, the Settings port and `frame_addr` of a cycle replaced. -/
def ClockCycle.withCommand (p : Settings) (w : CmdWord) (v : Bool) (a : BitVec 5) (c : ClockCycle) : ClockCycle :=
  { c with settings := p, cmdWord := w, cmdValid := v, frameAddr := a }

/-- Without an acceptance an edge of IDLE changes nothing (R14). -/
theorem idleEdge_of_no_acceptance {s : State} (hno : (s.now.cmdValid && s.cmdReady) = false) : idleEdge s = s :=
  if_neg (Bool.eq_false_iff.mp hno)

/-- At an edge that accepts no command, with the old values on the ports and with the new ones, the step looks at
none of the replaced ports (R133, R134). -/
theorem step_withCommand {s : State} {p : Settings} {w : CmdWord} {v : Bool} {a : BitVec 5}
    (hno : (s.now.cmdValid && s.cmdReady) = false) (hno' : (v && s.cmdReady) = false) :
    step (s.mapNow (ClockCycle.withCommand p w v a)) = step s := by
  have hidle : idleEdge (s.mapNow (ClockCycle.withCommand p w v a)) =
      (idleEdge s).mapNow (ClockCycle.withCommand p w v a) := by
    rw [idleEdge_of_no_acceptance hno]
    exact idleEdge_of_no_acceptance hno'
  exact step_mapNow rfl rfl (commandFreeEdge_mapNow rfl rfl hidle)

/-- Settles O9: with `cmd_ready` = 0 or `cmd_valid` = 0 the edge accepts no command. -/
theorem portsAreSampledOnlyAtAcceptance : Obligations.PortsAreSampledOnlyAtAcceptance := by
  unfold Obligations.PortsAreSampledOnlyAtAcceptance
  intro s p w
  refine ⟨fun hready v a => ?_, fun hv => ?_⟩
  · have hclosed (v : Bool) : (v && s.cmdReady) = false := by
      rw [show s.cmdReady = false from hready, Bool.and_false]
    exact step_withCommand (hclosed s.now.cmdValid) (hclosed v)
  · have hno : (s.now.cmdValid && s.cmdReady) = false := by rw [hv, Bool.false_and]
    exact step_withCommand (a := s.now.frameAddr) hno hno

/-! ### A sink that never accepts (O46) -/

/-- While the sink does not accept, an edge of EMIT can only raise the offer, and an offer stays (R106, R137). -/
theorem step_of_deafSink {s t : State} (h : step s = .next t) (hp : s.phase = .emit) (hr : s.now.rst = false)
    (hs : s.now.symReady = false) :
    ∃ o, t = advance { s with offer := o } ∧ (s.offer = true → o = true) := by
  obtain ⟨u, rfl, hu⟩ := step_emit_next h hr hp
  obtain ⟨y, -, ⟨ho, rfl⟩ | ⟨-, -, rfl⟩ | ⟨-, hs', -⟩ | ⟨-, hs', -⟩⟩ := emitEdge_cases hu
  · exact ⟨_, rfl, by simp [ho]⟩
  · exact ⟨u.offer, rfl, id⟩
  · simp [hs] at hs'
  · simp [hs] at hs'

/-- Such cycles leave the block in EMIT at its symbol, with nothing more in the sink, however many they are. -/
theorem run_of_deafSink {n : Nat} {s : State} (hinv : s.Inv) (hp : s.phase = .emit)
    (hdeaf : ∀ k, k < n → (s.cycleAt k).rst = false ∧ (s.cycleAt k).symReady = false) :
    ∃ t, run n s = some t ∧ t.Inv ∧ t.phase = .emit ∧ t.seqIdx = s.seqIdx ∧ t.sink = s.sink := by
  induction n generalizing s with
  | zero => exact ⟨s, rfl, hinv, hp, rfl, rfl⟩
  | succ n ih =>
    obtain ⟨hr, hs⟩ := hdeaf 0 (Nat.zero_lt_succ n)
    obtain ⟨u, hu⟩ := hinv.step_next
    have hnext : ∀ k, k < n → (u.cycleAt k).rst = false ∧ (u.cycleAt k).symReady = false := fun k hk => by
      rw [step_cycleAt hu]
      exact hdeaf (k + 1) (Nat.succ_lt_succ hk)
    have huinv := everyStepKeepsTheInvariant s u hinv hu
    obtain ⟨o, rfl, -⟩ := step_of_deafSink hu hp hr hs
    rw [run_succ_of_step hu]
    exact ih huinv hp hnext

/-- `emits zero` offers its symbol to a sink that never accepts. -/
def hungState : State :=
  { State.reset with
    phase := .emit
    cur := encode (.emits 0)
    offer := true
    now := { ClockCycle.quiet with symReady := false }
    rest := { ClockCycle.quiet with symReady := false } }

/-- The invariant holds of it, with SEQ_IDX 0 inside the schedule of one symbol. -/
theorem hungState_inv : hungState.Inv :=
  inv_of_emit { resetStateMeetsTheInvariant.registersFit with } rfl ⟨rfl, rfl⟩ (by decide)
    (fun hd => absurd hd (by decide)) (fun _ => ⟨rfl, rfl⟩)

/-- Each of its cycles, without end, is one in which the sink does not accept. -/
theorem hungState_deaf (k : Nat) : (hungState.cycleAt k).rst = false ∧ (hungState.cycleAt k).symReady = false := by
  cases k <;> exact ⟨rfl, rfl⟩

/-- In the cycle that repeats, the passing of a cycle of a busy block changes only what the reads return (log 2). -/
theorem advance_of_repeatedCycle {s : State} (hb : s.busy = true) (hlater : s.later = [])
    (hnow : s.now = s.rest.settled) : advance s = { s with seesNew := s.seesNew || s.now.readsNew } := by
  have hnext : s.nextCycle = s.now := by rw [State.nextCycle, hlater, hnow]; rfl
  have htail : s.later.tail = s.later := by rw [hlater]; rfl
  rw [advance, hb, hnext, htail, Bool.true_and]

/-- Settles O46: by induction on the number of edges, with `hungState` for the endless hang; an offer in the cycle
that repeats leaves the step nothing to change but the record of what the reads return. -/
theorem sinkThatNeverAcceptsHoldsTheBlock : Obligations.SinkThatNeverAcceptsHoldsTheBlock := by
  unfold Obligations.SinkThatNeverAcceptsHoldsTheBlock
  refine ⟨fun n s hinv hp hdeaf => ?_, ⟨hungState, hungState_inv, rfl, hungState_deaf, fun n => ?_⟩,
    fun s hinv ho hlater hnow hr hs => ?_⟩
  · obtain ⟨t, hrun, -, htp, hseq, hsink⟩ := run_of_deafSink hinv hp hdeaf
    exact ⟨t, hrun, htp, (busy_eq_true_iff t).mpr (by simp [htp]), hseq, hsink⟩
  · obtain ⟨t, hrun, htinv, htp, -, hsink⟩ := run_of_deafSink (n := n) hungState_inv rfl fun k _ => hungState_deaf k
    exact ⟨t, hrun, htp, (htinv.clear_of_busy (by simp [htp])).1, hsink⟩
  · obtain ⟨hp, -⟩ := hinv.offered ho
    obtain ⟨t, ht⟩ := hinv.step_next
    obtain ⟨o, rfl, hkeep⟩ := step_of_deafSink ht hp hr hs
    obtain rfl := hkeep ho
    rw [ht, show ({ s with offer := true } : State) = s by rw [← ho],
      advance_of_repeatedCycle ((busy_eq_true_iff s).mpr (by simp [hp])) hlater hnow]

/-! ### The race of reads (O60) -/

/-- Outside reset and without the bit of log 19 the reads are from the old registers (R135). -/
theorem hostRead_of_old {s : State} (hr : s.now.rst = false) (hn : s.seesNew = false) :
    s.hostRead = readOf s.oldView s.now.frameAddr := by
  rw [State.hostRead, readView_of_no_reset hr, hn]
  rfl

/-- With the bit they are from the new ones (R135). -/
theorem hostRead_of_new {s : State} (hr : s.now.rst = false) (hn : s.seesNew = true) :
    s.hostRead = readOf s.newView s.now.frameAddr := by
  rw [State.hostRead, readView_of_no_reset hr, hn]
  rfl

/-- The new values of an EXEC are what the command in CUR, or its illegal word, leaves (R60, R116). -/
theorem newView_of_outcome {s u : State} (hp : s.phase = .exec)
    (hu : (∃ i, decode s.cur = .legal i ∧ exec i s = .next u) ∨
      (∃ why, decode s.cur = .illegal why ∧ u = raiseError (illegalCommandErr why s.cur) s)) : s.newView = u := by
  rw [newView_exec hp]
  rcases hu with ⟨i, hd, hu⟩ | ⟨why, hd, rfl⟩
  · rw [exec_exec i hp] at hu
    rw [execOutcome_of_legal hp hd]
    exact Host.Outcome.next.inj hu
  · exact execOutcome_of_illegal hp hd

/-- No end of EXEC touches the record for the reads (log 19). -/
theorem ExecEnds.reads {s u : State} {i : Instr} (h : ExecEnds s i u) :
    u.oldFrame = s.oldFrame ∧ u.oldFvalid = s.oldFvalid ∧ u.seesNew = s.seesNew := by
  cases h <;> exact ⟨rfl, rfl, rfl⟩

/-- An edge of a command in progress keeps the old values, and reads never go back from new to old (R41; log 19). -/
theorem step_reads_of_busy {s t : State} (h : step s = .next t) (hr : s.now.rst = false) (hb : s.busy = true)
    (htb : t.busy = true) :
    t.oldFrame = s.oldFrame ∧ t.oldFvalid = s.oldFvalid ∧ t.seesNew = (s.seesNew || t.now.readsNew) := by
  obtain ⟨u, rfl, hu⟩ := step_cases h
  have hkeep : u.oldFrame = s.oldFrame ∧ u.oldFvalid = s.oldFvalid ∧ u.seesNew = s.seesNew := by
    have hp : s.phase ≠ .idle := (busy_eq_true_iff s).mp hb
    rcases hu with ⟨hr', -⟩ | ⟨-, hp', -⟩ | ⟨-, hp', -⟩ | ⟨-, -, -, rfl⟩ |
      ⟨-, -, -, ⟨i, -, rfl⟩ | ⟨why, -, rfl⟩⟩ | ⟨-, -, i, -, hu⟩
    · simp [hr] at hr'
    · exact absurd hp' hp
    · exact absurd hp' hp
    · exact ⟨rfl, rfl, rfl⟩
    · exact (execEnd_ends i s).reads
    · exact ⟨rfl, rfl, rfl⟩
    · obtain ⟨ys, p, d, q, o, rfl⟩ := emitEdge_frame hu
      exact ⟨rfl, rfl, rfl⟩
  obtain ⟨hframe, hfvalid, hn⟩ := hkeep
  rw [advance_busy] at htb
  exact ⟨hframe, hfvalid, by rw [advance_seesNew, htb, hn, Bool.true_and]⟩

/-- An edge of IDLE after which a command is in progress has accepted it and recorded its old values (log 19). -/
theorem step_reads_of_acceptance {s t : State} (h : step s = .next t) (hr : s.now.rst = false)
    (hb : s.busy = false) (htb : t.busy = true) :
    t.oldFrame = s.frame ∧ t.oldFvalid = s.fvalid ∧ t.seesNew = t.now.readsNew := by
  rcases step_lifecycle h hr with ⟨-, rfl⟩ | ⟨-, rfl⟩ | ⟨hb', -⟩ | ⟨hb', -⟩
  · exact ⟨rfl, rfl, by simp [advance_seesNew]⟩
  · simp [hb] at htb
  · simp [hb] at hb'
  · simp [hb] at hb'

/-! ### Neither the bits nor the reads have an effect (O60) -/

/-- The read bit of a cycle replaced. -/
def ClockCycle.withReadsNew (a : Bool) (c : ClockCycle) : ClockCycle := { c with readsNew := a }

/-- Neither acceptance nor idling looks at the read bit of its own cycle. -/
theorem idleEdge_withReadsNew (a : Bool) (s : State) :
    idleEdge (s.mapNow (ClockCycle.withReadsNew a)) = (idleEdge s).mapNow (ClockCycle.withReadsNew a) :=
  (apply_ite (State.mapNow (ClockCycle.withReadsNew a)) _ (accept s) s).symm

/-- What the current reads return replaced, and nothing else. -/
abbrev State.withSeesNew (b : Bool) (s : State) : State := s.mapCycles id id fun _ => b

/-- The edges that run no command pass the read bit through, but for acceptance, which clears it. -/
theorem commandFreeEdge_withSeesNew (b : Bool) {s u : State} (h : commandFreeEdge s = some u) :
    ∃ c, commandFreeEdge (s.withSeesNew b) = some (u.withSeesNew c) := by
  rcases commandFreeEdge_cases h with ⟨hr, rfl⟩ | ⟨hr, hp, hv, rfl⟩ | ⟨hr, hp, hv, rfl⟩ | ⟨hr, hp, hw, rfl⟩
  · exact ⟨b, if_pos hr⟩
  · refine ⟨false, ?_⟩
    simp [commandFreeEdge, idleEdge, State.cmdReady, accept, State.mapCycles, hr, hp, hv]
  · refine ⟨b, ?_⟩
    simp [commandFreeEdge, idleEdge, State.mapCycles, hr, hp, hv]
  · refine ⟨b, ?_⟩
    simp [commandFreeEdge, State.mapCycles, hr, hp, hw]

/-- The emission loop passes the read bit through. -/
theorem emitEdge_withSeesNew (b : Bool) {sched : List PulseSym} {s u : State} (h : emitEdge sched s = .next u) :
    emitEdge sched (s.withSeesNew b) = .next (u.withSeesNew b) := by
  obtain ⟨y, hy, ⟨ho, rfl⟩ | ⟨ho, hs, rfl⟩ | ⟨ho, hs, hl, rfl⟩ | ⟨ho, hs, hl, rfl⟩⟩ := emitEdge_cases h
  · simp [emitEdge, State.mapCycles, hy, ho]
  · simp [emitEdge, State.mapCycles, hy, ho, hs]
  · simp [emitEdge, State.mapCycles, complete, hy, ho, hs, hl]
  · simp [emitEdge, State.mapCycles, hy, ho, hs, hl]

/-- The meaning of a command passes the read bit through. -/
theorem exec_withSeesNew (b : Bool) {i : Instr} {s u : State} (h : exec i s = .next u) :
    exec i (s.withSeesNew b) = .next (u.withSeesNew b) := by
  rcases exec_next_cases h with ⟨hp, rfl⟩ | ⟨hp, hu⟩
  · rw [exec_exec (s := s.withSeesNew b) i hp, execEnd_mapCycles (.inl rfl)]
  · have hsched : schedOf i (s.withSeesNew b) = schedOf i s := schedOf_mapCycles i s
    obtain ⟨y, hy, -⟩ := emitEdge_cases hu
    rw [exec_emit (s := s.withSeesNew b) hp (by rw [hsched]; exact lt_of_symAt hy), hsched]
    exact emitEdge_withSeesNew b hu

/-- What the current reads return has an effect on later reads at most (log 19). -/
theorem step_withSeesNew (b : Bool) {s t : State} (h : step s = .next t) :
    ∃ c, step (s.withSeesNew b) = .next (t.withSeesNew c) := by
  cases hf : commandFreeEdge s with
  | some u =>
    rw [step_of_commandFree hf] at h
    cases h
    obtain ⟨c, hc⟩ := commandFreeEdge_withSeesNew b hf
    rw [step_of_commandFree hc]
    exact ⟨_, rfl⟩
  | none =>
    have hf' : commandFreeEdge (s.withSeesNew b) = none :=
      commandFreeEdge_none_iff.mpr (commandFreeEdge_none_iff (s := s).mp hf)
    cases hd : decode s.cur with
    | legal i =>
      rw [step_of_legal hf hd, advanceResult_next_iff] at h
      obtain ⟨u, hu, rfl⟩ := h
      rw [step_of_legal hf' (s := s.withSeesNew b) hd, exec_withSeesNew b hu]
      exact ⟨_, rfl⟩
    | illegal why =>
      rw [step_of_illegal hf hd, advanceResult_next_iff] at h
      obtain ⟨u, hu, rfl⟩ := h
      obtain ⟨hp, rfl⟩ := runIllegal_next_iff.mp hu
      rw [step_of_illegal hf' (s := s.withSeesNew b) hd, runIllegal_next_iff (s := s.withSeesNew b).mpr ⟨hp, rfl⟩]
      exact ⟨_, rfl⟩

/-- Settles O60: phase by phase over the two views, and for the bits because the step samples neither. -/
theorem readsWhileBusyAreARaceOfOldAndNew : Obligations.ReadsWhileBusyAreARaceOfOldAndNew := by
  unfold Obligations.ReadsWhileBusyAreARaceOfOldAndNew
  refine ⟨fun s hr hp => ?_, fun s u hr hp hu => ⟨fun hn => ?_, fun hn => ?_⟩,
    fun s hr hp => ⟨fun hn => ?_, fun hn => ?_⟩,
    fun s t h hr htb => ⟨fun hb => step_reads_of_acceptance h hr hb htb, fun hb => step_reads_of_busy h hr hb htb⟩,
    fun s hr => ?_, fun s a => ?_, fun s t b h => step_withSeesNew b h⟩
  · rw [State.hostRead, readView_idle hr hp, ← readOf_shown, shown_of_no_reset hr]
  · rw [hostRead_of_old hr hn, oldView_exec hp]
    rfl
  · rw [hostRead_of_new hr hn, newView_of_outcome hp hu]
    rfl
  · rw [hostRead_of_old hr hn, oldView_emit hp]
    rfl
  · rw [hostRead_of_new hr hn, newView_emit hp]
    rfl
  · have hshown : readOf s.shown s.now.frameAddr = ⟨0x0000#16, 0x000000#24, 0x00#8⟩ := by
      rw [shown_of_reset hr, readOf_resetEdge]
    obtain ⟨hstatus, hres, hframe⟩ := HostRead.mk.inj ((readOf_shown s).symm.trans hshown)
    exact ⟨hstatus, hres, hframe, by rw [State.hostRead, readView_of_reset hr, readOf_resetEdge]⟩
  · exact step_mapNow (n := ClockCycle.withReadsNew a) rfl rfl
      (commandFreeEdge_mapNow rfl rfl (idleEdge_withReadsNew a s))

end Sys2Proof.Machine
